-- ==== Sys2Proof/Word.lean ====
section
/-! DEFINITION. The one word type of the core, the 8-bit unsigned `Byte`, and the reduction `wrap8`. -/

namespace Sys2Proof

/-- 00_scope.md R10: every register, memory cell, operand, address and PC value is an 8-bit unsigned value 0..255. -/
abbrev Byte := BitVec 8

/-- 00_scope.md R12: `wrap8(e)` is `e mod 256`, the non-negative residue of an unbounded integer (so `wrap8 (0 - 1) = 255`). -/
def wrap8 (e : Int) : Byte := BitVec.ofInt 8 e

end Sys2Proof
end

