-- ==== Sys2Proof/Machine/State.lean ====
section
/-! DEFINITION. The architectural state of the core, exactly the list of 10_state.md R20, as plain data; the reasons a step
stops; the state after reset (70_reset_and_hazards.md R182). -/

namespace Sys2Proof.Machine

/-- 10_state.md R29: the flag register holds exactly one of three values. -/
inductive Flag where
  | less
  | greater
  | equal
  deriving DecidableEq, Repr

/-- The fatal errors of 60_exceptions.md R160. -/
inductive FaultCode where
  /-- Code 1: the fetched byte is no opcode (R162). -/
  | invalidOpcode
  /-- Code 2: the ALU was given an operation outside ADD, MULTIPLY and COMPARE (R163); no step raises it (R106). -/
  | unsupportedALUOperation
  /-- Code 3: a register operand byte is 8..255 (R164). -/
  | invalidRegister
  deriving DecidableEq, Repr

/-- The record of the fault latch (10_state.md R33): the error, the pc of the faulting instruction, the offending byte. -/
structure FaultRecord where
  code : FaultCode
  pc : Byte
  byte : Byte
  deriving DecidableEq, Repr

/-- A register index 0..7 (10_state.md R21). -/
abbrev Reg := Fin 8

/-- The memory of 20_memory.md R40 as a list of (address, byte) pairs in one canonical form (`Memory.wf` in Ops.lean): addresses
strictly rising and below 256, and no entry that holds what an unlisted address reads as. -/
abbrev Memory := List Host.Cell

/-- The architectural state, exactly 10_state.md R20. -/
structure State where
  /-- `mem[0..255]` (20_memory.md R40). -/
  mem : Memory
  /-- `x[0..7]` (R21); `x[7]` is SP (R22). -/
  x : Vector Byte 8
  /-- The program counter (R27): the address of the opcode byte of the instruction being executed. -/
  pc : Byte
  /-- The flag register (R29). -/
  fl : Flag
  /-- The running flag (R32). -/
  running : Bool
  /-- The fault latch (R33). -/
  fault : Option FaultRecord
  /-- The output sequence, oldest first (R34). -/
  out : List Byte
  deriving DecidableEq, Repr

/-- Why no step is enabled (40_dispatch.md R81). A fault of the spec is NOT one of these: the step that raises it answers a next
state with the latch written (60_exceptions.md R161), and it is the step after it that stops. -/
inductive Fault where
  /-- Raised by `step` of a machine whose running flag HALT has cleared (R81, R88). Safe: the machine takes no step. -/
  | halted
  /-- Raised by `step` of a machine whose fault latch holds a record (R81, R88), and carries the record. Safe: the machine takes no step. -/
  | faulted (record : FaultRecord)
  deriving DecidableEq, Repr

/-- Why the model gives no meaning. -/
inductive Refusal where
  /-- Raised by an arm of `exec` whose instruction has no meaning yet; no arm does so. Safe. -/
  | notModelled (mnemonic : String)
  /-- Raised by the interface's `load` after the first step, which the spec does not model (20_memory.md R57,
  93_implementation_defined.md U21 'refuse'). Safe: nothing is said of such a host. -/
  | loadDuringRun
  deriving DecidableEq, Repr

/-- 70_reset_and_hazards.md R182: the reset value of every piece of state. The empty list is a memory of zeros (R56). -/
def State.reset : State where
  mem := []
  x := Vector.replicate 8 0
  pc := 0
  fl := .equal
  running := true
  fault := none
  out := []

end Sys2Proof.Machine
end

