-- ==== Sys2Proof/Machine/Flags.lean ====
section
/-! DEFINITION. The flag register: what COMPARE computes (41_alu.md R103), what the conditional jumps test (43_branch.md R142,
R143), and the byte layout of 10_state.md R30. -/

namespace Sys2Proof.Machine

/-- 41_alu.md R103: the unsigned comparison of two Bytes. -/
def compareFlag (u v : Byte) : Flag :=
  if u.toNat < v.toNat then .less else if v.toNat < u.toNat then .greater else .equal

/-- 43_branch.md R142, R143: the one thing a branch reads of FL, whether it is EQUAL. -/
def Flag.isEqual (f : Flag) : Bool := f == .equal

/-- 10_state.md R30: the layout `0b00000LGE`, bit 2 LESS, bit 1 GREATER, bit 0 EQUAL. No instruction can observe it. -/
def Flag.bits : Flag → Byte
  | .less => 0b00000100
  | .greater => 0b00000010
  | .equal => 0b00000001

end Sys2Proof.Machine
end

