-- ==== Sys2Proof/Config.lean ====
section
/-! DEFINITION. The two parameters the spec leaves OPEN (00_scope.md R9; 92_eei_decisions.md D10, D11), as constants
without a body: no proof can learn their value, so a theorem about them holds for every value. The third parameter,
`OPCODE_MAP`, has a default and stands in Decode.lean. -/

namespace Sys2Proof

/-- 42_stack.md R122: which value of SP a PUSH of register 7 writes: the value before the decrement (`old`) or after it (`new`). -/
inductive PushSpSource where
  | old
  | new
  deriving DecidableEq, Repr, Inhabited

/-- 42_stack.md R123: what a POP into register 7 leaves there: the popped value (`value`) or its successor (`valuePlusOne`). -/
inductive PopSpResult where
  | value
  | valuePlusOne
  deriving DecidableEq, Repr, Inhabited

/-- `PUSH_SP_SOURCE` of this machine: OPEN in the spec (D10), so a constant with no body (log entry 10). -/
opaque Config.pushSpSource : PushSpSource

/-- `POP_SP_RESULT` of this machine: OPEN in the spec (D11), so a constant with no body (log entry 11). -/
opaque Config.popSpResult : PopSpResult

end Sys2Proof
end

