-- ==== Sys2Proof/Syntax.lean ====
section
/-! DEFINITION. The 13 instructions of the opcode table (30_encoding.md R61, spec/opcode_table.json), their mnemonics and
their written form (R73). An operand is the whole operand byte, as the spec's `a` and `b` are (00_scope.md R14). -/

namespace Sys2Proof

/-- The 13 entries of the dispatch table (00_scope.md R3, 40_dispatch.md R82). `ret` is RETURN. -/
inductive Mnemonic where
  | halt
  | loadImmediate
  | printRegister
  | add
  | multiply
  | push
  | pop
  | call
  | ret
  | compare
  | jump
  | jumpIfEqual
  | jumpIfNotEqual
  deriving DecidableEq, Repr

/-- One instruction with its operand bytes (30_encoding.md R61): `a` is operand A, `b` operand B. In every constructor
`a` is a register index; `b` is one in ADD, MULTIPLY and COMPARE and an immediate in LOAD_IMMEDIATE. -/
inductive Instr where
  | halt
  | loadImmediate (a b : Byte)
  | printRegister (a : Byte)
  | add (a b : Byte)
  | multiply (a b : Byte)
  | push (a : Byte)
  | pop (a : Byte)
  | call (a : Byte)
  | ret
  | compare (a b : Byte)
  | jump (a : Byte)
  | jumpIfEqual (a : Byte)
  | jumpIfNotEqual (a : Byte)
  deriving DecidableEq, Repr

/-- The dispatch-table entry of an instruction. -/
def Instr.mnemonic : Instr → Mnemonic
  | .halt => .halt
  | .loadImmediate _ _ => .loadImmediate
  | .printRegister _ => .printRegister
  | .add _ _ => .add
  | .multiply _ _ => .multiply
  | .push _ => .push
  | .pop _ => .pop
  | .call _ => .call
  | .ret => .ret
  | .compare _ _ => .compare
  | .jump _ => .jump
  | .jumpIfEqual _ => .jumpIfEqual
  | .jumpIfNotEqual _ => .jumpIfNotEqual

/-- The operand bytes of an instruction, in byte order (30_encoding.md R61). -/
def Instr.operands : Instr → List Byte
  | .halt => []
  | .loadImmediate a b => [a, b]
  | .printRegister a => [a]
  | .add a b => [a, b]
  | .multiply a b => [a, b]
  | .push a => [a]
  | .pop a => [a]
  | .call a => [a]
  | .ret => []
  | .compare a b => [a, b]
  | .jump a => [a]
  | .jumpIfEqual a => [a]
  | .jumpIfNotEqual a => [a]

/-- The source's long mnemonic (00_scope.md R19), as spec/opcode_table.json spells it. -/
def Mnemonic.name : Mnemonic → String
  | .halt => "HALT"
  | .loadImmediate => "LOAD_IMMEDIATE"
  | .printRegister => "PRINT_REGISTER"
  | .add => "ADD"
  | .multiply => "MULTIPLY"
  | .push => "PUSH"
  | .pop => "POP"
  | .call => "CALL"
  | .ret => "RETURN"
  | .compare => "COMPARE"
  | .jump => "JUMP"
  | .jumpIfEqual => "JUMP_IF_EQUAL"
  | .jumpIfNotEqual => "JUMP_IF_NOT_EQUAL"

/-- The short LS-8 spelling (30_encoding.md R73, from general knowledge; log entry 18). -/
def Mnemonic.shortName : Mnemonic → String
  | .halt => "HLT"
  | .loadImmediate => "LDI"
  | .printRegister => "PRN"
  | .add => "ADD"
  | .multiply => "MUL"
  | .push => "PUSH"
  | .pop => "POP"
  | .call => "CALL"
  | .ret => "RET"
  | .compare => "CMP"
  | .jump => "JMP"
  | .jumpIfEqual => "JEQ"
  | .jumpIfNotEqual => "JNE"

/-- The written form of 30_encoding.md R73: `MNEMONIC(a, b)`, `MNEMONIC(a)` or `MNEMONIC`, operands in decimal. -/
def Instr.text (i : Instr) : String :=
  match i.operands with
  | [] => i.mnemonic.name
  | ops => i.mnemonic.name ++ "(" ++ String.intercalate ", " (ops.map fun v => toString v.toNat) ++ ")"

end Sys2Proof
end

