-- ==== Sys2Proof/WellFormed.lean ====
section
/-! DEFINITION. When an instruction's register operands are valid (30_encoding.md R63, 40_dispatch.md R80). An
ill-formed instruction is no refusal: the machine raises InvalidRegister on it (60_exceptions.md R164). -/

namespace Sys2Proof

/-- `regOperands(op, A, B)` of 40_dispatch.md R80: the operand bytes that are register indices, operand A first. -/
def Instr.regOperands : Instr → List Byte
  | .halt => []
  | .loadImmediate a _ => [a]
  | .printRegister a => [a]
  | .add a b => [a, b]
  | .multiply a b => [a, b]
  | .push a => [a]
  | .pop a => [a]
  | .call a => [a]
  | .ret => []
  | .compare a b => [a, b]
  | .jump a => [a]
  | .jumpIfEqual a => [a]
  | .jumpIfNotEqual a => [a]

/-- 10_state.md R21, 30_encoding.md R63: a valid register index is 0..7; the byte is not masked. -/
def validRegisterByte (r : Byte) : Bool := decide (r.toNat < 8)

/-- Every register operand is 0..7. -/
def Instr.wellFormed (i : Instr) : Bool := i.regOperands.all validRegisterByte

end Sys2Proof
end

