-- ==== Sys2Proof/Decode.lean ====
section
/-! DEFINITION. The instruction decoder (30_encoding.md R60 to R72, 40_dispatch.md R82) and the encoder (R75), both over
an opcode map, and the default map (R66). -/

namespace Sys2Proof

/-- The four formats of 30_encoding.md R61. -/
inductive Format where
  | op
  | opR
  | opRR
  | opRI
  deriving DecidableEq, Repr

/-- 30_encoding.md R61: the length in bytes, opcode byte included. -/
def Format.length : Format → Nat
  | .op => 1
  | .opR => 2
  | .opRR => 3
  | .opRI => 3

/-- 30_encoding.md R61: the format of each instruction. -/
def Mnemonic.format : Mnemonic → Format
  | .halt => .op
  | .loadImmediate => .opRI
  | .printRegister => .opR
  | .add => .opRR
  | .multiply => .opRR
  | .push => .opR
  | .pop => .opR
  | .call => .opR
  | .ret => .op
  | .compare => .opRR
  | .jump => .opR
  | .jumpIfEqual => .opR
  | .jumpIfNotEqual => .opR

/-- 30_encoding.md R68: the length is a property of the matched entry. -/
def Instr.length (i : Instr) : Nat := i.mnemonic.format.length

/-- 30_encoding.md R67: `OPCODE_MAP`, a function from the 13 instructions to Bytes. -/
abbrev OpcodeMap := Mnemonic → Byte

/-- 30_encoding.md R67: what every opcode map meets: it is injective and 0xFF is not in its image. -/
def OpcodeMap.Valid (m : OpcodeMap) : Prop :=
  (∀ j k : Mnemonic, m j = m k → j = k) ∧ ∀ k : Mnemonic, m k ≠ 0xFF

/-- 30_encoding.md R66: the default opcode map. PRESUMED: the spec supplies the bytes from general knowledge (log entry 1). -/
def defaultOpcodeMap : OpcodeMap
  | .halt => 0b00000001
  | .loadImmediate => 0b10000010
  | .printRegister => 0b01000111
  | .add => 0b10100000
  | .multiply => 0b10100010
  | .push => 0b01000101
  | .pop => 0b01000110
  | .call => 0b01010000
  | .ret => 0b00010001
  | .compare => 0b10100111
  | .jump => 0b01010100
  | .jumpIfEqual => 0b01010101
  | .jumpIfNotEqual => 0b01010110

/-- Every entry of the dispatch table. -/
def Mnemonic.all : List Mnemonic :=
  [.halt, .loadImmediate, .printRegister, .add, .multiply, .push, .pop, .call, .ret, .compare, .jump, .jumpIfEqual,
    .jumpIfNotEqual]

/-- `lookup(OPCODE_MAP, IR)` of 40_dispatch.md R82: the entry whose opcode byte equals IR, by exact match of the whole byte
(30_encoding.md R68). -/
def OpcodeMap.lookup (m : OpcodeMap) (ir : Byte) : Option Mnemonic :=
  Mnemonic.all.find? fun k => m k == ir

/-- The three bytes every step fetches (30_encoding.md R62): the instruction register and the operands A and B. -/
structure Fetched where
  ir : Byte
  a : Byte
  b : Byte
  deriving DecidableEq, Repr

/-- The first three bytes of a byte string as a fetch gives them; a missing byte is 0. -/
def Fetched.ofBytes (l : List Byte) : Fetched := ⟨l.getD 0 0, l.getD 1 0, l.getD 2 0⟩

/-- The fetched bytes, in address order. -/
def Fetched.bytes (w : Fetched) : List Byte := [w.ir, w.a, w.b]

/-- An entry with the operand bytes it takes; the others are ignored (30_encoding.md R65). -/
def Mnemonic.instr (k : Mnemonic) (a b : Byte) : Instr :=
  match k with
  | .halt => .halt
  | .loadImmediate => .loadImmediate a b
  | .printRegister => .printRegister a
  | .add => .add a b
  | .multiply => .multiply a b
  | .push => .push a
  | .pop => .pop a
  | .call => .call a
  | .ret => .ret
  | .compare => .compare a b
  | .jump => .jump a
  | .jumpIfEqual => .jumpIfEqual a
  | .jumpIfNotEqual => .jumpIfNotEqual a

/-- Why bytes decode to no instruction. -/
inductive DecodeError where
  /-- 30_encoding.md R70: the opcode byte is in no entry of the map; carries the offending byte. -/
  | invalidOpcode (byte : Byte)
  deriving DecidableEq, Repr

/-- The decoder of 40_dispatch.md R80 and R82, total on the three fetched bytes. Register operands keep the whole byte: the
check that raises InvalidRegister belongs to the instruction (log entry 8). -/
def decode (m : OpcodeMap) (w : Fetched) : Except DecodeError Instr :=
  match m.lookup w.ir with
  | some k => .ok (k.instr w.a w.b)
  | none => .error (.invalidOpcode w.ir)

/-- 30_encoding.md R75: the opcode byte followed by the operand bytes. -/
def encode (m : OpcodeMap) (i : Instr) : List Byte := m i.mnemonic :: i.operands

/-- Byte `k` of a table word: the table numbers bit 0 as the least significant bit of the first byte. -/
def tableByte (nbits w k : Nat) : Byte := BitVec.ofNat 8 (w % 2 ^ nbits / 256 ^ k)

/-- The three bytes of a table word, as a fetch at the address of its first byte gives them (30_encoding.md R61). -/
def tableBytes (nbits w : Nat) : Fetched := ⟨tableByte nbits w 0, tableByte nbits w 1, tableByte nbits w 2⟩

/-- The instruction the decoder reads from a word of spec/opcode_table.json, under the default opcode map. -/
def decodeTableWord (nbits w : Nat) : Option Instr :=
  match decode defaultOpcodeMap (tableBytes nbits w) with
  | .ok i => some i
  | .error _ => none

end Sys2Proof
end

