-- ==== Sys2Proof/Machine/Ops.lean ====
section
/-! DEFINITION. The named operations every meaning is written with: memory, registers, pc, output, stack, raising a fault,
fetch, and when a step is enabled. -/

namespace Sys2Proof.Machine

/-! Memory (20_memory.md). -/

/-- 20_memory.md R56: what a cell that nothing has written reads as, the reset value 0. -/
def Memory.unlisted : Byte := 0

/-- The canonical form of a memory: addresses strictly rising, every address one of 0..255 (R40), no entry equal to what an
unlisted address reads as. -/
abbrev Memory.wf (m : Memory) : Prop :=
  m.Pairwise (fun c d => c.1 < d.1) ∧ ∀ c ∈ m, c.1 < 256 ∧ c.2 ≠ Memory.unlisted

/-- `MemRead(addr, 1)` (R44). -/
def Memory.read (m : Memory) (a : Byte) : Byte :=
  match m with
  | [] => Memory.unlisted
  | c :: rest => if c.1 = a.toNat then c.2 else Memory.read rest a

/-- A memory without the entry of one address. -/
def Memory.erase (m : Memory) (a : Byte) : Memory := m.filter fun c => c.1 != a.toNat

/-- An entry put before the first entry of a higher address. -/
def Memory.insert (m : Memory) (a v : Byte) : Memory :=
  match m with
  | [] => [(a.toNat, v)]
  | c :: rest => if a.toNat < c.1 then (a.toNat, v) :: c :: rest else c :: Memory.insert rest a v

/-- `MemWrite(addr, 1, v)` (R44, R47): one cell changes; the canonical form is kept. -/
def Memory.write (m : Memory) (a v : Byte) : Memory :=
  if v = Memory.unlisted then m.erase a else (m.erase a).insert a v

/-! Registers (10_state.md R21 to R26). No register is hardwired (R23). -/

/-- Register 7 is the stack pointer (R22). -/
def sp : Reg := 7

/-- `x[r]`. -/
def State.reg (s : State) (r : Reg) : Byte := s.x[r]

/-- `x[r] <- v`. -/
def State.setReg (s : State) (r : Reg) (v : Byte) : State := { s with x := s.x.set r v }

/-! Program counter, flag, running flag, output. -/

/-- `pc <- target`. -/
def State.setPc (s : State) (target : Byte) : State := { s with pc := target }

/-- `pc <- wrap8(pc + n)` (10_state.md R27, R28). -/
def State.advance (s : State) (n : Nat) : State := s.setPc (wrap8 (s.pc.toNat + n))

/-- `FL <- f` (R29). -/
def State.setFlag (s : State) (f : Flag) : State := { s with fl := f }

/-- `running <- false` (R32). -/
def State.stopRunning (s : State) : State := { s with running := false }

/-- `Out(v)` (40_dispatch.md R87). -/
def State.emit (s : State) (v : Byte) : State := { s with out := s.out ++ [v] }

/-- `mem[a] <- v` on the whole state. -/
def State.store (s : State) (a v : Byte) : State := { s with mem := s.mem.write a v }

/-! The stack (42_stack.md R120, R121). -/

/-- `wrap8(SP - 1)`: the address a push writes. -/
def State.pushAddress (s : State) : Byte := wrap8 ((s.reg sp).toNat - 1)

/-- A push: decrement SP, then write at the new SP. -/
def State.pushByte (s : State) (v : Byte) : State := (s.setReg sp s.pushAddress).store s.pushAddress v

/-- The byte a pop reads: the cell at SP. -/
def State.topByte (s : State) : Byte := s.mem.read (s.reg sp)

/-- The second half of a pop: increment SP. -/
def State.dropByte (s : State) : State := s.setReg sp (wrap8 ((s.reg sp).toNat + 1))

/-! Faults (60_exceptions.md R161): one operation for every kind. -/

/-- 60_exceptions.md R160: the numeric codes. -/
def FaultCode.number : FaultCode → Nat
  | .invalidOpcode => 1
  | .unsupportedALUOperation => 2
  | .invalidRegister => 3

/-- `raise K(info)` (R161): the latch is written with the code, the pc and the byte, and nothing else changes. There is no trap
entry (R166) and no return from a fault (R167). -/
def State.raise (s : State) (code : FaultCode) (byte : Byte) : State := { s with fault := some ⟨code, s.pc, byte⟩ }

/-! Fetch and enabling (30_encoding.md R62, 40_dispatch.md R80, R81). -/

/-- The instruction register: the byte at pc. -/
def State.ir (s : State) : Byte := s.mem.read s.pc

/-- The fetch of 30_encoding.md R62: three reads, the operand addresses taken modulo 256. -/
def State.fetch (s : State) : Fetched where
  ir := s.ir
  a := s.mem.read (wrap8 (s.pc.toNat + 1))
  b := s.mem.read (wrap8 (s.pc.toNat + 2))

/-- 40_dispatch.md R81, R88: why no step is enabled, if none is. A recorded fault is a Faulted end whatever the running flag
says (R88; log entry 6). -/
def State.stopReason (s : State) : Option Fault :=
  match s.fault with
  | some r => some (.faulted r)
  | none => if s.running then none else some .halted

/-- What a step does when the fetched bytes decode to no instruction (60_exceptions.md R162). -/
def State.raiseDecodeError (s : State) : DecodeError → State
  | .invalidOpcode byte => s.raise .invalidOpcode byte

/-! The load port (20_memory.md R57). -/

/-- `load(address, value)`: `mem[address] <- value`. -/
def State.load (s : State) (a v : Byte) : State := s.store a v

/-- Loading bytes in order from an address on, `mem[at + i] <- p[i]`. -/
def State.loadFrom (s : State) (start : Nat) (p : List Byte) : State :=
  match p with
  | [] => s
  | v :: rest => (s.load (wrap8 start) v).loadFrom (start + 1) rest

/-- The Loader's order (R57): a program of at most 256 bytes, from address 0. -/
def State.loadProgram (s : State) (p : List Byte) : State := s.loadFrom 0 p

/-- The three bytes of an instruction stored where the next fetch reads them (log entry 16). -/
def State.placeAtPc (s : State) (w : Fetched) : State :=
  ((s.store s.pc w.ir).store (wrap8 (s.pc.toNat + 1)) w.a).store (wrap8 (s.pc.toNat + 2)) w.b

end Sys2Proof.Machine
end

