-- ==== Sys2Proof/Machine/Operands.lean ====
section
/-! DEFINITION. Operand decoding (30_encoding.md R63, R64), the register check of a step (40_dispatch.md R80, 60_exceptions.md
R164, R165), and the ALU's arithmetic (41_alu.md R100 to R106). -/

namespace Sys2Proof.Machine

/-- The register an operand byte names: its value, valid when 0..7, not masked (30_encoding.md R63). -/
def regOperand (b : Byte) : Option Reg :=
  if h : b.toNat < 8 then some ⟨b.toNat, h⟩ else none

/-- The operand byte that names a register. -/
def Reg.byte (r : Reg) : Byte := BitVec.ofNat 8 r.val

/-- The immediate operand: the byte as is (30_encoding.md R64). -/
def immediateOperand (b : Byte) : Byte := b

/-- InvalidRegister (60_exceptions.md R164): code 3, the pc, the operand byte. -/
def State.raiseInvalidRegister (s : State) (b : Byte) : State := s.raise .invalidRegister b

/-- The register check of 40_dispatch.md R80 for an instruction with one register operand, then its handler. -/
def withReg (a : Byte) (s : State) (handler : Reg → State) : Host.Outcome State Fault Refusal :=
  match regOperand a with
  | some ra => .next (handler ra)
  | none => .next (s.raiseInvalidRegister a)

/-- The register check for an instruction with two register operands, operand A first (60_exceptions.md R165). -/
def withRegs (a b : Byte) (s : State) (handler : Reg → Reg → State) : Host.Outcome State Fault Refusal :=
  match regOperand a with
  | none => .next (s.raiseInvalidRegister a)
  | some ra => withReg b s (handler ra)

/-! The ALU. -/

/-- The closed set of ALU operations (41_alu.md R100). -/
inductive AluOp where
  | add
  | multiply
  | compare
  deriving DecidableEq, Repr

/-- The ALU operation a symbolic tag names, if it names one (41_alu.md R106: the tag is checked). -/
def aluOp : Mnemonic → Option AluOp
  | .add => some .add
  | .multiply => some .multiply
  | .compare => some .compare
  | .halt => none
  | .loadImmediate => none
  | .printRegister => none
  | .push => none
  | .pop => none
  | .call => none
  | .ret => none
  | .jump => none
  | .jumpIfEqual => none
  | .jumpIfNotEqual => none

/-- 41_alu.md R101, R104: the exact sum, kept modulo 256. -/
def addBytes (u v : Byte) : Byte := wrap8 (u.toNat + v.toNat)

/-- 41_alu.md R102, R104: the exact product, kept modulo 256. -/
def mulBytes (u v : Byte) : Byte := wrap8 (u.toNat * v.toNat)

/-! The values of the stack instructions that name register 7 (42_stack.md R122, R123). -/

/-- The value a PUSH writes: `x[r]` before the decrement; for `r = 7` the parameter decides (R122). -/
def pushedValue (p : PushSpSource) (s : State) (r : Reg) : Byte :=
  if r = sp then
    match p with
    | .old => s.reg sp
    | .new => s.pushAddress
  else s.reg r

/-- The value a POP leaves in its destination: the popped byte; for `r = 7` the parameter decides (R123). -/
def poppedValue (q : PopSpResult) (v : Byte) (r : Reg) : Byte :=
  if r = sp then
    match q with
    | .value => v
    | .valuePlusOne => wrap8 (v.toNat + 1)
  else v

end Sys2Proof.Machine
end

