-- ==== Sys2Proof/Machine/Alu.lean ====
section
/-! DEFINITION. The ALU and its three instructions ADD, MULTIPLY and COMPARE (41_alu.md R100 to R107). -/

namespace Sys2Proof.Machine

/-- The ALU (41_alu.md R100): a function of the operation and two register indices that writes its result in place. -/
def alu (op : AluOp) (ra rb : Reg) (s : State) : State :=
  match op with
  | .add => s.setReg ra (addBytes (s.reg ra) (s.reg rb))
  | .multiply => s.setReg ra (mulBytes (s.reg ra) (s.reg rb))
  | .compare => s.setFlag (compareFlag (s.reg ra) (s.reg rb))

/-- An ALU instruction that passes a symbolic tag: the register check (40_dispatch.md R80), the check of the tag, which raises
UnsupportedALUOperation with the IR byte (60_exceptions.md R163; no instruction reaches it, R106), the operation, and
`pc <- wrap8(pc + 3)`. -/
def aluInstruction (tag : Mnemonic) (a b : Byte) (s : State) : Host.Outcome State Fault Refusal :=
  withRegs a b s fun ra rb =>
    match aluOp tag with
    | some op => (alu op ra rb s).advance 3
    | none => s.raise .unsupportedALUOperation s.ir

/-- ADD(a, b) (41_alu.md R101). -/
def execAdd (a b : Byte) (s : State) : Host.Outcome State Fault Refusal := aluInstruction .add a b s

/-- MULTIPLY(a, b) (41_alu.md R102). -/
def execMultiply (a b : Byte) (s : State) : Host.Outcome State Fault Refusal := aluInstruction .multiply a b s

/-- COMPARE(a, b) (41_alu.md R103). -/
def execCompare (a b : Byte) (s : State) : Host.Outcome State Fault Refusal := aluInstruction .compare a b s

end Sys2Proof.Machine
end

