-- ==== Sys2Proof/Machine/Branch.lean ====
section
/-! DEFINITION. JUMP, JUMP_IF_EQUAL and JUMP_IF_NOT_EQUAL (43_branch.md R140 to R144). -/

namespace Sys2Proof.Machine

/-- A branch (43_branch.md R140): to the register's value when taken, else `pc <- wrap8(pc + 2)`. The register is checked either
way (40_dispatch.md R80). -/
def branchIf (taken : Bool) (a : Byte) (s : State) : Host.Outcome State Fault Refusal :=
  withReg a s fun ra => if taken then s.setPc (s.reg ra) else s.advance 2

/-- JUMP(a) (43_branch.md R141). -/
def execJump (a : Byte) (s : State) : Host.Outcome State Fault Refusal := branchIf true a s

/-- JUMP_IF_EQUAL(a) (43_branch.md R142). -/
def execJumpIfEqual (a : Byte) (s : State) : Host.Outcome State Fault Refusal := branchIf s.fl.isEqual a s

/-- JUMP_IF_NOT_EQUAL(a) (43_branch.md R143). -/
def execJumpIfNotEqual (a : Byte) (s : State) : Host.Outcome State Fault Refusal := branchIf (!s.fl.isEqual) a s

end Sys2Proof.Machine
end

