-- ==== Sys2Proof/Machine/General.lean ====
section
/-! DEFINITION. HALT, LOAD_IMMEDIATE and PRINT_REGISTER (40_dispatch.md R84 to R87). -/

namespace Sys2Proof.Machine

/-- HALT (40_dispatch.md R84): `running <- false`; the pc keeps the address of the opcode. -/
def execHalt (s : State) : Host.Outcome State Fault Refusal := .next s.stopRunning

/-- LOAD_IMMEDIATE(a, b) (R85): `x[a] <- B; pc <- wrap8(pc + 3)`. -/
def execLoadImmediate (a b : Byte) (s : State) : Host.Outcome State Fault Refusal :=
  withReg a s fun ra => (s.setReg ra (immediateOperand b)).advance 3

/-- PRINT_REGISTER(a) (R86): `Out(x[a]); pc <- wrap8(pc + 2)`. -/
def execPrintRegister (a : Byte) (s : State) : Host.Outcome State Fault Refusal :=
  withReg a s fun ra => (s.emit (s.reg ra)).advance 2

end Sys2Proof.Machine
end

