-- ==== Sys2Proof/Machine/Stack.lean ====
section
/-! DEFINITION. PUSH, POP, CALL and RETURN (42_stack.md R120 to R127). -/

namespace Sys2Proof.Machine

/-- PUSH(a) under a value of `PUSH_SP_SOURCE` (42_stack.md R122). -/
def execPushWith (p : PushSpSource) (a : Byte) (s : State) : Host.Outcome State Fault Refusal :=
  withReg a s fun ra => (s.pushByte (pushedValue p s ra)).advance 2

/-- PUSH(a) on this machine: `PUSH_SP_SOURCE` is OPEN (D10). -/
def execPush (a : Byte) (s : State) : Host.Outcome State Fault Refusal := execPushWith Config.pushSpSource a s

/-- POP(a) under a value of `POP_SP_RESULT` (42_stack.md R123): the cell at SP, the increment, then the register write. -/
def execPopWith (q : PopSpResult) (a : Byte) (s : State) : Host.Outcome State Fault Refusal :=
  withReg a s fun ra => (s.dropByte.setReg ra (poppedValue q s.topByte ra)).advance 2

/-- POP(a) on this machine: `POP_SP_RESULT` is OPEN (D11). -/
def execPop (a : Byte) (s : State) : Host.Outcome State Fault Refusal := execPopWith Config.popSpResult a s

/-- CALL(a) (42_stack.md R124): push `wrap8(pc + 2)`, then `pc <- x[a]`, the target read after the decrement (D19). -/
def execCall (a : Byte) (s : State) : Host.Outcome State Fault Refusal :=
  withReg a s fun ra =>
    let pushed := s.pushByte (wrap8 (s.pc.toNat + 2))
    pushed.setPc (pushed.reg ra)

/-- RETURN (42_stack.md R125): the pc is the cell at SP; SP is incremented. -/
def execReturn (s : State) : Host.Outcome State Fault Refusal := .next (s.dropByte.setPc s.topByte)

end Sys2Proof.Machine
end

