-- ==== Sys2Proof/Machine/Step.lean ====
section
/-! DEFINITION. One step of the machine (40_dispatch.md R80, R81), under an opcode map and under the default one. -/

namespace Sys2Proof.Machine

/-- The step of 40_dispatch.md R80 under an opcode map: when enabled (R81), fetch three bytes, decode, and run the instruction's
handler, which checks its register operands first; bytes that decode to no instruction raise InvalidOpcode. -/
def stepWith (m : OpcodeMap) (s : State) : Host.Outcome State Fault Refusal :=
  match s.stopReason with
  | some r => .fault r
  | none =>
    match decode m s.fetch with
    | .ok i => exec i s
    | .error e => .next (s.raiseDecodeError e)

/-- The step under the default opcode map (30_encoding.md R66; log entry 1). -/
def step (s : State) : Host.Outcome State Fault Refusal := stepWith defaultOpcodeMap s

/-- `s` with a table word's instruction stored at the pc, where `step` fetches (log entry 16). -/
def State.withFetchWord (s : State) (nbits w : Nat) : State := s.placeAtPc (tableBytes nbits w)

end Sys2Proof.Machine
end

