-- ==== Sys2Proof/Machine/Interface.lean ====
section
/-! DEFINITION. The core's interface to the outside (40_dispatch.md R89; 70_reset_and_hazards.md R180, R184): reset at any time,
load only between reset and the first step, step when enabled. -/

namespace Sys2Proof.Machine

/-- The core at its interface: whether the first step has been taken since reset, and the core's state. -/
structure Block where
  started : Bool
  core : State
  deriving DecidableEq, Repr

/-- The three inputs of 40_dispatch.md R89. -/
inductive Command where
  | reset
  | load (address value : Byte)
  | step
  deriving DecidableEq, Repr

/-- A step of the core at the interface, under an opcode map; once one is taken, loading is over (70_reset_and_hazards.md R184). -/
def Block.step (m : OpcodeMap) (b : Block) : Host.Outcome Block Fault Refusal :=
  match stepWith m b.core with
  | .next t => .next ⟨true, t⟩
  | .fault r => .fault r
  | .refused r => .refused r

/-- One input, under an opcode map: `reset` is allowed at any time (R180), `load` only before the first step (20_memory.md R57;
93_implementation_defined.md U21 'refuse'). -/
def Block.command (m : OpcodeMap) (b : Block) (c : Command) : Host.Outcome Block Fault Refusal :=
  match c with
  | .reset => .next ⟨false, State.reset⟩
  | .load a v => if b.started then .refused .loadDuringRun else .next { b with core := b.core.load a v }
  | .step => b.step m

end Sys2Proof.Machine
end

