-- ==== Sys2Proof/Machine/Run.lean ====
section
/-! DEFINITION. The end of a run (40_dispatch.md R88, 70_reset_and_hazards.md R189) and an executor under fuel. -/

namespace Sys2Proof.Machine

/-- How a run ends, if it ends (40_dispatch.md R88). -/
inductive EndKind where
  | halted
  | faulted
  deriving DecidableEq, Repr

/-- What is observed of a run that ended (40_dispatch.md R88): the end kind and the final state. -/
structure Observation where
  kind : EndKind
  final : State
  deriving DecidableEq, Repr

/-- The end kind of a stopped machine; `none` while a step is enabled (40_dispatch.md R81, R88). -/
def State.endKind (s : State) : Option EndKind :=
  match s.stopReason with
  | some (.faulted _) => some .faulted
  | some .halted => some .halted
  | none => none

/-- At most `fuel` steps from `s`: the observation if the run has ended by then. `none` says that the fuel ran out, which is no
end of the run (70_reset_and_hazards.md R189). -/
def observeWith (m : OpcodeMap) (fuel : Nat) (s : State) : Option Observation :=
  match s.endKind with
  | some k => some ⟨k, s⟩
  | none =>
    match fuel with
    | 0 => none
    | n + 1 =>
      match stepWith m s with
      | .next t => observeWith m n t
      | .fault _ => none
      | .refused _ => none

/-- The state after exactly `n` steps from `s`, if every one of them is enabled. -/
def afterSteps (m : OpcodeMap) (n : Nat) (s : State) : Option State :=
  match n with
  | 0 => some s
  | k + 1 =>
    match stepWith m s with
    | .next t => afterSteps m k t
    | .fault _ => none
    | .refused _ => none

/-- The run from `s` ends, and this is what is observed of it. -/
def EndsWith (m : OpcodeMap) (s : State) (o : Observation) : Prop := ∃ fuel, observeWith m fuel s = some o

/-- The run from `s` never ends: a hang, not an end (40_dispatch.md R88). -/
def NeverEnds (m : OpcodeMap) (s : State) : Prop := ∀ fuel, observeWith m fuel s = none

end Sys2Proof.Machine
end

