-- ==== Sys2Proof/Safety.lean ====
section
/-! DEFINITION. The terms claims use: when the machine is enabled, halted, faulted or stopped (00_scope.md R18, 40_dispatch.md R81,
R88), the invariant of its states, a clean end, and the vocabulary of frames. -/

namespace Sys2Proof.Machine

/-- 40_dispatch.md R81: a step is enabled. -/
def Enabled (s : State) : Prop := s.running = true ∧ s.fault = none

/-- 40_dispatch.md R88: the normal end. -/
def Halted (s : State) : Prop := s.running = false ∧ s.fault = none

/-- 40_dispatch.md R88: an error end. -/
def Faulted (s : State) : Prop := s.fault ≠ none

/-- 00_scope.md R18: halted or faulted. -/
def Stopped (s : State) : Prop := Halted s ∨ Faulted s

/-- A safe run (40_dispatch.md R88: a faulted state is never a successful final state): no end of it is Faulted. -/
def RunsSafely (m : OpcodeMap) (s : State) : Prop := ∀ o, EndsWith m s o → o.kind = .halted

/-- What a fault record says of the state it was latched in (10_state.md R33, 60_exceptions.md R161 to R164), under an opcode map:
the pc is the machine's, an offending opcode is the byte there and is no opcode, an offending register operand is 8..255, and
the unreachable kind does not occur (41_alu.md R106). -/
def FaultRecord.Describes (r : FaultRecord) (m : OpcodeMap) (s : State) : Prop :=
  r.pc = s.pc ∧
    match r.code with
    | .invalidOpcode => r.byte = s.mem.read s.pc ∧ ∀ k, m k ≠ r.byte
    | .invalidRegister => 8 ≤ r.byte.toNat
    | .unsupportedALUOperation => False

/-- The invariant of the machine's states under an opcode map: memory is in canonical form, and a recorded fault leaves the
running flag set (60_exceptions.md R161) and describes the state. -/
structure State.Inv (m : OpcodeMap) (s : State) : Prop where
  memory : s.mem.wf
  latch : ∀ r, s.fault = some r → s.running = true ∧ r.Describes m s

/-! Frames: what two states have in common. -/

/-- Every register but the listed ones is unchanged. -/
def KeepsRegsBut (written : List Reg) (s t : State) : Prop := ∀ r : Reg, r ∉ written → t.reg r = s.reg r

/-- Every byte of memory reads as before but at the listed addresses. -/
def KeepsMemBut (written : List Byte) (s t : State) : Prop := ∀ a : Byte, a ∉ written → t.mem.read a = s.mem.read a

/-- The running flag and the fault latch are unchanged. -/
def KeepsStatus (s t : State) : Prop := t.running = s.running ∧ t.fault = s.fault

/-- The next pc is `n` bytes on, modulo 256 (10_state.md R27, R28). -/
def AdvancesPc (n : Nat) (s t : State) : Prop := t.pc.toNat = (s.pc.toNat + n) % 256

/-- Applying a change of the state to the outcome of an instruction that ends in a next state. -/
def mapNext (f : State → State) : Host.Outcome State Fault Refusal → Host.Outcome State Fault Refusal
  | .next s => .next (f s)
  | .fault r => .fault r
  | .refused r => .refused r

/-- The registers an instruction reads (10_state.md R24). -/
def readsRegisters : Instr → List Byte
  | .halt => []
  | .loadImmediate _ _ => []
  | .printRegister a => [a]
  | .add a b => [a, b]
  | .multiply a b => [a, b]
  | .push a => [a, 7]
  | .pop _ => [7]
  | .call a => [a, 7]
  | .ret => [7]
  | .compare a b => [a, b]
  | .jump a => [a]
  | .jumpIfEqual a => [a]
  | .jumpIfNotEqual a => [a]

/-- The registers an instruction writes (10_state.md R24). -/
def writesRegisters : Instr → List Byte
  | .halt => []
  | .loadImmediate a _ => [a]
  | .printRegister _ => []
  | .add a _ => [a]
  | .multiply a _ => [a]
  | .push _ => [7]
  | .pop a => [7, a]
  | .call _ => [7]
  | .ret => [7]
  | .compare _ _ => []
  | .jump _ => []
  | .jumpIfEqual _ => []
  | .jumpIfNotEqual _ => []

end Sys2Proof.Machine
end

