-- ==== Sys2Proof/Certificates/Slice0/Obligations.lean ====
section
/-! DEFINITION. The statements for the provers. A register operand is written `r.byte` for a register `r` of 0..7: those are all the
operand bytes with an effect (`RegisterOperandIsTheWholeByte`); what the other bytes do is `InvalidRegisterNamesTheFirstBadOperand`.
A statement about a next state says that the instruction reaches it and what the frame is. -/

open Sys2Proof Sys2Proof.Machine

/-! Encoding and decoding (30_encoding.md). -/

/-- 30_encoding.md R66, R67, R69: the default opcode map has the bytes of R66, is injective, omits 0xFF, and reads as AABCDDDD.
The byte values are PRESUMED (log entry 1: the spec's general knowledge, its decision D1). -/
def Obligations.DefaultOpcodeMapMeetsItsConstraints : Prop :=
  defaultOpcodeMap .halt = 0x01 ∧ defaultOpcodeMap .loadImmediate = 0x82 ∧ defaultOpcodeMap .printRegister = 0x47 ∧
  defaultOpcodeMap .add = 0xA0 ∧ defaultOpcodeMap .multiply = 0xA2 ∧ defaultOpcodeMap .push = 0x45 ∧
  defaultOpcodeMap .pop = 0x46 ∧ defaultOpcodeMap .call = 0x50 ∧ defaultOpcodeMap .ret = 0x11 ∧
  defaultOpcodeMap .compare = 0xA7 ∧ defaultOpcodeMap .jump = 0x54 ∧ defaultOpcodeMap .jumpIfEqual = 0x55 ∧
  defaultOpcodeMap .jumpIfNotEqual = 0x56 ∧
  defaultOpcodeMap.Valid ∧
  ∀ k : Mnemonic,
    (defaultOpcodeMap k).toNat / 64 + 1 = k.format.length ∧
    (defaultOpcodeMap k).getLsbD 5 = decide (k ∈ [Mnemonic.add, .multiply, .compare]) ∧
    (defaultOpcodeMap k).getLsbD 4 = decide (k ∈ [Mnemonic.call, .ret, .jump, .jumpIfEqual, .jumpIfNotEqual])

/-- Words written out bit by bit from 30_encoding.md R61 and R66 decode to the instructions they stand for (opcode bytes PRESUMED,
log entry 1). -/
def Obligations.WordsWrittenFromTheTableDecode : Prop :=
  decode defaultOpcodeMap ⟨0b00000001, 0b11111111, 0b11111111⟩ = .ok .halt ∧
  decode defaultOpcodeMap ⟨0b10000010, 0b00000000, 0b00001000⟩ = .ok (.loadImmediate 0 8) ∧
  decode defaultOpcodeMap ⟨0b01000111, 0b00000101, 0b11111111⟩ = .ok (.printRegister 5) ∧
  decode defaultOpcodeMap ⟨0b10100000, 0b00000000, 0b00000001⟩ = .ok (.add 0 1) ∧
  decode defaultOpcodeMap ⟨0b10100010, 0b00000010, 0b00000011⟩ = .ok (.multiply 2 3) ∧
  decode defaultOpcodeMap ⟨0b10100111, 0b00000100, 0b00000001⟩ = .ok (.compare 4 1) ∧
  decode defaultOpcodeMap ⟨0b01000101, 0b00000111, 0b00000000⟩ = .ok (.push 7) ∧
  decode defaultOpcodeMap ⟨0b00010001, 0b10011001, 0b10011001⟩ = .ok .ret ∧
  decode defaultOpcodeMap ⟨0b01010110, 0b00000011, 0b00000000⟩ = .ok (.jumpIfNotEqual 3) ∧
  decode defaultOpcodeMap ⟨0b10101000, 0b00000000, 0b00000001⟩ = .error (.invalidOpcode 0b10101000)

/-- 30_encoding.md R75, R65: under every opcode map that meets R67, and whatever bytes follow, decoding an encoded instruction
gives it back, for every instruction and every value of every operand byte. -/
def Obligations.DecodingAnEncodedInstructionGivesItBack : Prop :=
  ∀ m : OpcodeMap, m.Valid → ∀ (i : Instr) (rest : List Byte),
    decode m (Fetched.ofBytes (encode m i ++ rest)) = .ok i

/-- The other direction of R75: bytes that decode are the encoding of what they decode to, followed by ignored bytes; so no two
instructions share a word and no bit of an operand is dropped. -/
def Obligations.DecodedBytesAreTheEncoding : Prop :=
  ∀ (m : OpcodeMap) (w : Fetched) (i : Instr), decode m w = .ok i →
    encode m i = w.bytes.take i.length ∧ i.length = (encode m i).length

/-- 30_encoding.md R68: decoding is by exact match of the whole opcode byte with an entry of the map; the entry gives the
instruction, with it the format, the length and the operand count; no entry means the InvalidOpcode rejection. -/
def Obligations.DecodingIsAnExactMatchOfTheOpcodeByte : Prop :=
  ∀ m : OpcodeMap, m.Valid → ∀ w : Fetched,
    (∀ k : Mnemonic, m k = w.ir → decode m w = .ok (k.instr w.a w.b) ∧ (k.instr w.a w.b).mnemonic = k ∧
      (k.instr w.a w.b).length = k.format.length ∧ (k.instr w.a w.b).operands.length + 1 = k.format.length) ∧
    ((∀ k : Mnemonic, m k ≠ w.ir) → decode m w = .error (.invalidOpcode w.ir)) ∧
    (∀ i : Instr, decode m w = .ok i → m i.mnemonic = w.ir)

/-- 30_encoding.md R60: an instruction is one opcode byte followed by 0, 1 or 2 operand bytes, and its length is a property of
its opcode alone. -/
def Obligations.InstructionsAreOneTwoOrThreeBytes : Prop :=
  ∀ m : OpcodeMap,
    (∀ i : Instr, encode m i = m i.mnemonic :: i.operands ∧ i.operands.length ≤ 2 ∧ (encode m i).length = i.length) ∧
    (m.Valid → ∀ i j : Instr, (encode m i).head? = (encode m j).head? → (encode m i).length = (encode m j).length)

/-- 30_encoding.md R70: 243 of the 256 byte values are illegal opcodes under every map meeting R67, among them 0xFF; under the
default map also 0x00. -/
def Obligations.TwoHundredFortyThreeBytesAreIllegal : Prop :=
  (∀ m : OpcodeMap, m.Valid →
    ((List.range 256).filter fun n => (m.lookup (BitVec.ofNat 8 n)).isNone).length = 243 ∧ m.lookup 0xFF = none) ∧
  defaultOpcodeMap.lookup 0x00 = none

/-- 30_encoding.md R63: a register operand is the whole byte, valid when 0..7, and not masked. -/
def Obligations.RegisterOperandIsTheWholeByte : Prop :=
  (∀ b : Byte, 8 ≤ b.toNat → regOperand b = none) ∧ (∀ (b : Byte) (r : Reg), regOperand b = some r ↔ b.toNat = r.val) ∧
  (∀ (b : Byte) (r : Reg), b = r.byte ↔ b.toNat = r.val)

/-- 30_encoding.md R62: a step fetches the bytes at pc, pc + 1 and pc + 2, the addresses modulo 256 (the wrap is the spec's
decision D2, log entry 2). -/
def Obligations.FetchReadsThreeBytesModulo256 : Prop :=
  ∀ s : State, s.fetch.ir = s.mem.read s.pc ∧
    s.fetch.a = s.mem.read (BitVec.ofNat 8 ((s.pc.toNat + 1) % 256)) ∧
    s.fetch.b = s.mem.read (BitVec.ofNat 8 ((s.pc.toNat + 2) % 256))

/-! The step and its ends (40_dispatch.md R80 to R83, R88; 60_exceptions.md). -/

/-- 40_dispatch.md R80: when a step is enabled and the bytes at pc decode to an instruction, the step is that instruction's
meaning, with nothing added around it (each handler moves the pc itself, R83). -/
def Obligations.StepRunsTheDecodedInstruction : Prop :=
  ∀ s : State, Enabled s →
    (∀ i : Instr, decode defaultOpcodeMap s.fetch = .ok i → step s = exec i s) ∧
    (∀ m : OpcodeMap, ∀ i : Instr, decode m s.fetch = .ok i → stepWith m s = exec i s)

/-- 40_dispatch.md R81: the machine takes a step exactly when running and not faulted, under every opcode map and whatever memory
holds; a stopped machine stays stopped however often a step is asked for; no step is ever refused. -/
def Obligations.StepsAreTakenExactlyWhenEnabled : Prop :=
  ∀ (m : OpcodeMap) (s : State),
    (Enabled s ↔ ∃ t, stepWith m s = .next t) ∧
    (Stopped s ↔ ∃ r, stepWith m s = .fault r) ∧
    (Stopped s → ∀ n, afterSteps m (n + 1) s = none) ∧
    ∀ r, stepWith m s ≠ .refused r

/-- 40_dispatch.md R81, R88: a halted machine stops with the reason `halted`, a faulted one with its record. -/
def Obligations.StoppedMachineSaysWhy : Prop :=
  ∀ (m : OpcodeMap) (s : State),
    (Halted s → stepWith m s = .fault .halted) ∧
    ∀ r, s.fault = some r → stepWith m s = .fault (.faulted r)

/-- 60_exceptions.md R161, R162: a byte that is no opcode raises InvalidOpcode, whatever the operand bytes (R165): code 1, the pc
and the byte are latched and nothing else changes (the latch is the spec's decision D7, log entry 4). -/
def Obligations.InvalidOpcodeLatchesTheByteAndNothingElse : Prop :=
  ∀ (m : OpcodeMap) (s : State), Enabled s → (∀ k : Mnemonic, m k ≠ s.mem.read s.pc) →
    stepWith m s = .next { s with fault := some ⟨.invalidOpcode, s.pc, s.mem.read s.pc⟩ } ∧
    FaultCode.invalidOpcode.number = 1

/-- 60_exceptions.md R164, R165, 40_dispatch.md R80: an instruction with a register operand of 8..255 raises InvalidRegister for the
first such operand, operand A before operand B, and changes nothing but the latch (the spec's decisions D8 and D18, log entry 7). -/
def Obligations.InvalidRegisterNamesTheFirstBadOperand : Prop :=
  FaultCode.invalidRegister.number = 3 ∧
  ∀ (i : Instr) (s : State) (bad : Byte), i.regOperands.find? (fun r => decide (8 ≤ r.toNat)) = some bad →
    exec i s = .next { s with fault := some ⟨.invalidRegister, s.pc, bad⟩ }

/-- 60_exceptions.md R163, R106: an ALU instruction whose tag is outside ADD, MULTIPLY and COMPARE would raise code 2 with the IR byte
(the model keeps this arm: log entry 13; the latch is the spec's decision D7). -/
def Obligations.AluRefusesATagOutsideItsSet : Prop :=
  FaultCode.unsupportedALUOperation.number = 2 ∧
  ∀ (tag : Mnemonic), tag ≠ .add → tag ≠ .multiply → tag ≠ .compare → ∀ (ra rb : Reg) (s : State),
    aluInstruction tag ra.byte rb.byte s = .next { s with fault := some ⟨.unsupportedALUOperation, s.pc, s.mem.read s.pc⟩ }

/-- 41_alu.md R106: no step raises UnsupportedALUOperation, under any opcode map and from any state. -/
def Obligations.UnsupportedAluOperationIsUnreachable : Prop :=
  ∀ (m : OpcodeMap) (s t : State), stepWith m s = .next t → ∀ r, t.fault = some r → r.code ≠ .unsupportedALUOperation

/-- 60_exceptions.md R161: faults are precise. A step that leaves a fault leaves everything else as it was, and the record describes
the state (the latch and its fields are the spec's decisions D7 and D17, log entry 4). -/
def Obligations.FaultingStepWritesOnlyTheLatch : Prop :=
  ∀ (m : OpcodeMap) (s t : State), stepWith m s = .next t → ∀ r, t.fault = some r →
    t = { s with fault := some r } ∧ r.Describes m s

/-- 60_exceptions.md R168: what is not a fault. An enabled step on any opcode and register operands of 0..7 leaves no fault, whatever
the pc, SP, register values, stack contents, targets and unused operand bytes are. -/
def Obligations.WellFormedInstructionsRaiseNothing : Prop :=
  ∀ (m : OpcodeMap) (s : State) (i : Instr), Enabled s → decode m s.fetch = .ok i → i.wellFormed = true →
    ∃ t, stepWith m s = .next t ∧ t.fault = none

/-! Rules of the whole machine: who may change what. -/

/-- 10_state.md R32: HALT is the only writer of the running flag, and it only clears it. -/
def Obligations.OnlyHaltChangesTheRunningFlag : Prop :=
  ∀ (m : OpcodeMap) (s t : State), stepWith m s = .next t →
    (t.running = false ↔ decode m s.fetch = .ok .halt)

/-- 10_state.md R29: COMPARE is the only writer of FL. -/
def Obligations.OnlyCompareChangesTheFlag : Prop :=
  ∀ (m : OpcodeMap) (s t : State), stepWith m s = .next t → t.fl ≠ s.fl →
    ∃ ra rb : Reg, decode m s.fetch = .ok (.compare ra.byte rb.byte)

/-- 40_dispatch.md R87, 10_state.md R34: a step leaves the output as it was, or is a PRINT_REGISTER and appends one register's byte. -/
def Obligations.OutputGrowsOnlyByPrintRegister : Prop :=
  ∀ (m : OpcodeMap) (s t : State), stepWith m s = .next t →
    t.out = s.out ∨ ∃ r : Reg, decode m s.fetch = .ok (.printRegister r.byte) ∧ t.out = s.out ++ [s.reg r]

/-- 20_memory.md R42: a step that changes a byte of memory is a PUSH or a CALL, and the byte is the one at the decremented SP. -/
def Obligations.OnlyPushAndCallWriteMemory : Prop :=
  ∀ (m : OpcodeMap) (s t : State), stepWith m s = .next t → ∀ a : Byte, t.mem.read a ≠ s.mem.read a →
    a = s.pushAddress ∧
    ∃ r : Reg, decode m s.fetch = .ok (.push r.byte) ∨ decode m s.fetch = .ok (.call r.byte)

/-- 10_state.md R24, the writes column: a step changes a register only if its instruction lists it. -/
def Obligations.OnlyListedRegistersAreWritten : Prop :=
  ∀ (m : OpcodeMap) (s t : State), stepWith m s = .next t → ∀ r : Reg, t.reg r ≠ s.reg r →
    ∃ i : Instr, decode m s.fetch = .ok i ∧ r.byte ∈ writesRegisters i

/-- 10_state.md R24, the reads column: a register outside it has no influence. Changing it before the instruction is changing it
after, or nothing where the instruction writes it. -/
def Obligations.UnlistedRegistersAreNotRead : Prop :=
  ∀ (i : Instr) (s : State) (r : Reg) (v : Byte), r.byte ∉ readsRegisters i →
    exec i (s.setReg r v) =
      if i.wellFormed = true ∧ r.byte ∈ writesRegisters i then exec i s else mapNext (fun t => t.setReg r v) (exec i s)

/-- 10_state.md R29, 43_branch.md R142, R143: FL is read by the conditional jumps alone, and they read only whether it is EQUAL; a
COMPARE that runs does not depend on its old value. -/
def Obligations.FlagIsReadOnlyAsTheEqualBit : Prop :=
  ∀ (i : Instr) (s : State) (f : Flag),
    (i.mnemonic ≠ .compare → i.mnemonic ≠ .jumpIfEqual → i.mnemonic ≠ .jumpIfNotEqual →
      exec i (s.setFlag f) = mapNext (fun t => t.setFlag f) (exec i s)) ∧
    (i.mnemonic = .jumpIfEqual ∨ i.mnemonic = .jumpIfNotEqual → (f = .equal ↔ s.fl = .equal) →
      exec i (s.setFlag f) = mapNext (fun t => t.setFlag f) (exec i s)) ∧
    (i.mnemonic = .compare → i.wellFormed = true → exec i (s.setFlag f) = exec i s)

/-- 20_memory.md R42, 42_stack.md R127: beyond the fetch, only POP and RETURN read memory, and only the cell at SP; the other
instructions that store nothing do not depend on it. -/
def Obligations.DataIsReadOnlyAtTheStackTop : Prop :=
  ∀ (i : Instr) (s : State) (mem : Memory), i.mnemonic ≠ .push → i.mnemonic ≠ .call →
    (i.mnemonic = .pop ∨ i.mnemonic = .ret → mem.read (s.reg sp) = s.mem.read (s.reg sp)) →
    exec i { s with mem := mem } = mapNext (fun t => { t with mem := mem }) (exec i s)

/-- 43_branch.md R144, with the targets of R141 to R143 and 42_stack.md R124, R125: only CALL, RETURN, JUMP and the conditional jumps
when taken set the pc other than by advancing it; every other well-formed instruction but HALT moves it by its length (HALT's pc is
`HaltClearsTheRunningFlag`). The conditional jumps test only the EQUAL bit: LESS and GREATER are treated alike. That CALL reads its
target after the push, so that CALL of register 7 goes to the new SP, is the spec's own decision D19 (90_conflicts.md C11, log
entry 12). -/
def Obligations.ControlTransfersAreTheListedOnes : Prop :=
  ∀ (i : Instr) (s : State), i.wellFormed = true →
    ∃ t, exec i s = .next t ∧
      (i.mnemonic ∉ [Mnemonic.call, .ret, .jump, .jumpIfEqual, .jumpIfNotEqual, .halt] → AdvancesPc i.length s t) ∧
      (i.mnemonic = .jumpIfEqual → s.fl ≠ .equal → AdvancesPc i.length s t) ∧
      (i.mnemonic = .jumpIfNotEqual → s.fl = .equal → AdvancesPc i.length s t) ∧
      (i = .ret → t.pc = s.mem.read (s.reg sp)) ∧
      ∀ r : Reg,
        (i = .jump r.byte ∨ (i = .jumpIfEqual r.byte ∧ s.fl = .equal) ∨ (i = .jumpIfNotEqual r.byte ∧ s.fl ≠ .equal) →
          t.pc = s.reg r) ∧
        (i = .call r.byte → t.pc = t.reg r)

/-! HALT, LOAD_IMMEDIATE, PRINT_REGISTER (40_dispatch.md R84 to R87). -/

/-- 40_dispatch.md R84: HALT clears the running flag and changes nothing else (the unchanged pc is the spec's decision D9, log
entry 9). -/
def Obligations.HaltClearsTheRunningFlag : Prop :=
  ∀ s : State, exec .halt s = .next { s with running := false }

/-- 40_dispatch.md R85: LOAD_IMMEDIATE writes its immediate byte to the register and moves the pc by 3. -/
def Obligations.LoadImmediateWritesTheByte : Prop :=
  ∀ (r : Reg) (b : Byte) (s : State), ∃ t, exec (.loadImmediate r.byte b) s = .next t ∧
    t.reg r = b ∧ AdvancesPc 3 s t ∧
    KeepsRegsBut [r] s t ∧ KeepsMemBut [] s t ∧ t.mem = s.mem ∧ t.fl = s.fl ∧ t.out = s.out ∧ KeepsStatus s t

/-- 40_dispatch.md R86, R87: PRINT_REGISTER appends the register's byte to the output and moves the pc by 2. -/
def Obligations.PrintRegisterAppendsTheByte : Prop :=
  ∀ (r : Reg) (s : State), ∃ t, exec (.printRegister r.byte) s = .next t ∧
    t.out = s.out ++ [s.reg r] ∧ AdvancesPc 2 s t ∧
    KeepsRegsBut [] s t ∧ KeepsMemBut [] s t ∧ t.mem = s.mem ∧ t.fl = s.fl ∧ KeepsStatus s t

/-- The property of §8 quoted in 40_dispatch.md R85 (95_test_vectors.md S1): LOAD_IMMEDIATE(r, v) then PRINT_REGISTER(r) outputs v. -/
def Obligations.LoadedByteIsPrinted : Prop :=
  ∀ (r : Reg) (v : Byte) (s : State), ∃ t u,
    exec (.loadImmediate r.byte v) s = .next t ∧ exec (.printRegister r.byte) t = .next u ∧ u.out = s.out ++ [v]

/-! The ALU instructions (41_alu.md). -/

/-- 41_alu.md R104: ADD and MULTIPLY compute the exact natural-number sum or product and keep it modulo 256; the bits above bit 7
are recorded nowhere. -/
def Obligations.AddAndMultiplyAreExactModulo256 : Prop :=
  ∀ (ra rb : Reg) (s : State),
    (∃ t, exec (.add ra.byte rb.byte) s = .next t ∧
      (t.reg ra).toNat = ((s.reg ra).toNat + (s.reg rb).toNat) % 256 ∧
      AdvancesPc 3 s t ∧
      KeepsRegsBut [ra] s t ∧ KeepsMemBut [] s t ∧ t.mem = s.mem ∧ t.fl = s.fl ∧ t.out = s.out ∧ KeepsStatus s t) ∧
    (∃ t, exec (.multiply ra.byte rb.byte) s = .next t ∧
      (t.reg ra).toNat = ((s.reg ra).toNat * (s.reg rb).toNat) % 256 ∧
      AdvancesPc 3 s t ∧
      KeepsRegsBut [ra] s t ∧ KeepsMemBut [] s t ∧ t.mem = s.mem ∧ t.fl = s.fl ∧ t.out = s.out ∧ KeepsStatus s t)

/-- 41_alu.md R103: COMPARE sets FL to exactly one of LESS, GREATER and EQUAL by the unsigned comparison, writes no register and
moves the pc by 3. -/
def Obligations.CompareSetsExactlyOneFlag : Prop :=
  ∀ (ra rb : Reg) (s : State), ∃ t, exec (.compare ra.byte rb.byte) s = .next t ∧
    (t.fl = .less ↔ (s.reg ra).toNat < (s.reg rb).toNat) ∧
    (t.fl = .greater ↔ (s.reg rb).toNat < (s.reg ra).toNat) ∧
    (t.fl = .equal ↔ s.reg ra = s.reg rb) ∧
    AdvancesPc 3 s t ∧ KeepsRegsBut [] s t ∧ KeepsMemBut [] s t ∧ t.mem = s.mem ∧ t.out = s.out ∧ KeepsStatus s t

/-- 41_alu.md R107: ADD and MULTIPLY write only `x[a]` and pc, COMPARE only FL and pc; what they write depends only on their two
operand registers and the pc, so on no memory, no other register (SP included), no flag, and neither `running` nor `out`. -/
def Obligations.AluInstructionsLeaveTheRestAlone : Prop :=
  ∀ (ra rb : Reg) (s s' : State), s'.reg ra = s.reg ra → s'.reg rb = s.reg rb → s'.pc = s.pc →
    (∃ v p, exec (.add ra.byte rb.byte) s = .next { s with x := s.x.set ra v, pc := p } ∧
      exec (.add ra.byte rb.byte) s' = .next { s' with x := s'.x.set ra v, pc := p }) ∧
    (∃ v p, exec (.multiply ra.byte rb.byte) s = .next { s with x := s.x.set ra v, pc := p } ∧
      exec (.multiply ra.byte rb.byte) s' = .next { s' with x := s'.x.set ra v, pc := p }) ∧
    (∃ f p, exec (.compare ra.byte rb.byte) s = .next { s with fl := f, pc := p } ∧
      exec (.compare ra.byte rb.byte) s' = .next { s' with fl := f, pc := p })

/-! The stack instructions (42_stack.md). -/

/-- 42_stack.md R122, R121: PUSH decrements SP modulo 256 and writes the register's value at the new SP; for register 7 the value is
the one `PUSH_SP_SOURCE` selects, either one (OPEN, D10; log entry 10). The wrap is the spec's decision D4 (log entry 2). -/
def Obligations.PushDecrementsThenWrites : Prop :=
  ∀ (r : Reg) (s : State), ∃ t, exec (.push r.byte) s = .next t ∧
    t.reg sp = s.pushAddress ∧ (t.reg sp).toNat = ((s.reg sp).toNat + 255) % 256 ∧
    (r ≠ sp → t.mem.read s.pushAddress = s.reg r) ∧
    (r = sp → t.mem.read s.pushAddress =
      match Config.pushSpSource with
      | .old => s.reg sp
      | .new => s.pushAddress) ∧
    AdvancesPc 2 s t ∧
    KeepsRegsBut [sp] s t ∧ KeepsMemBut [s.pushAddress] s t ∧ t.fl = s.fl ∧ t.out = s.out ∧ KeepsStatus s t

/-- 42_stack.md R123, R121: POP reads the cell at SP, increments SP modulo 256 and writes the register; for register 7 what is left is
the popped value or its successor, as `POP_SP_RESULT` selects (OPEN, D11; log entry 11). The wrap is the spec's decision D4. -/
def Obligations.PopReadsThenIncrements : Prop :=
  ∀ (r : Reg) (s : State), ∃ t, exec (.pop r.byte) s = .next t ∧
    (r ≠ sp → t.reg r = s.mem.read (s.reg sp) ∧ (t.reg sp).toNat = ((s.reg sp).toNat + 1) % 256) ∧
    (r = sp → (t.reg sp).toNat =
      match Config.popSpResult with
      | .value => (s.mem.read (s.reg sp)).toNat
      | .valuePlusOne => ((s.mem.read (s.reg sp)).toNat + 1) % 256) ∧
    AdvancesPc 2 s t ∧
    KeepsRegsBut [sp, r] s t ∧ KeepsMemBut [] s t ∧ t.mem = s.mem ∧ t.fl = s.fl ∧ t.out = s.out ∧ KeepsStatus s t

/-- 42_stack.md R124: CALL decrements SP, writes the return address pc + 2 at the new SP, and goes to the register's value, read after
the decrement (for register 7 that is the new SP: the spec's decision D19, log entry 12). -/
def Obligations.CallPushesTheReturnAddress : Prop :=
  ∀ (r : Reg) (s : State), ∃ t, exec (.call r.byte) s = .next t ∧
    t.reg sp = s.pushAddress ∧ (t.reg sp).toNat = ((s.reg sp).toNat + 255) % 256 ∧
    (t.mem.read s.pushAddress).toNat = (s.pc.toNat + 2) % 256 ∧
    (r ≠ sp → t.pc = s.reg r) ∧ (r = sp → t.pc = s.pushAddress) ∧
    KeepsRegsBut [sp] s t ∧ KeepsMemBut [s.pushAddress] s t ∧ t.fl = s.fl ∧ t.out = s.out ∧ KeepsStatus s t

/-- 42_stack.md R125: RETURN sets the pc to the byte at SP, then increments SP modulo 256; it takes no operand and raises nothing. -/
def Obligations.ReturnPopsIntoThePc : Prop :=
  ∀ s : State, (∀ m : OpcodeMap, encode m .ret = [m .ret]) ∧ ∃ t, exec .ret s = .next t ∧
    t.pc = s.mem.read (s.reg sp) ∧ (t.reg sp).toNat = ((s.reg sp).toNat + 1) % 256 ∧
    KeepsRegsBut [sp] s t ∧ KeepsMemBut [] s t ∧ t.mem = s.mem ∧ t.fl = s.fl ∧ t.out = s.out ∧ KeepsStatus s t

/-- The stack round trip of §8 (42_stack.md R123, 95_test_vectors.md S2): for registers other than 7, PUSH then POP carries the value
over and gives SP back. -/
def Obligations.PushThenPopCarriesTheValue : Prop :=
  ∀ (r q : Reg) (s : State), r ≠ sp → q ≠ sp → ∃ t u,
    exec (.push r.byte) s = .next t ∧ exec (.pop q.byte) t = .next u ∧
    u.reg q = s.reg r ∧ u.reg sp = s.reg sp ∧ u.mem.read s.pushAddress = s.reg r ∧
    KeepsRegsBut [q] s u ∧ KeepsMemBut [s.pushAddress] s u

/-- 42_stack.md R122 (derived there): read as covering PUSH(7), the round-trip property of §8 holds exactly for `PUSH_SP_SOURCE = Old`
and `POP_SP_RESULT = Value`. -/
def Obligations.StackPointerRoundTripNeedsOldAndValue : Prop :=
  ∀ (p : PushSpSource) (q : PopSpResult),
    (∀ (s t u : State) (r : Reg), execPushWith p sp.byte s = .next t → execPopWith q r.byte t = .next u →
      u.reg r = s.reg sp ∧ u.reg sp = s.reg sp) ↔
    p = .old ∧ q = .value

/-- 42_stack.md R125 (the property of §8, 95_test_vectors.md S3; C11): a RETURN after a CALL resumes at pc + 2 with SP given back; the
CALL goes to the register's value, but for register 7 to the address below the old SP. -/
def Obligations.ReturnResumesAfterTheCall : Prop :=
  ∀ (r : Reg) (s : State), ∃ t u, exec (.call r.byte) s = .next t ∧ exec .ret t = .next u ∧
    (r ≠ sp → t.pc = s.reg r) ∧ (r = sp → t.pc.toNat = ((s.reg sp).toNat + 255) % 256) ∧
    u.pc.toNat = (s.pc.toNat + 2) % 256 ∧ KeepsRegsBut [] s u

/-- 20_memory.md R54, 70_reset_and_hazards.md R186 (95_test_vectors.md P7): the byte a PUSH or CALL writes is what the very next step
fetches, if it fetches there (the spec's decision D12, log entry 15). -/
def Obligations.PushedByteIsFetchedByTheNextStep : Prop :=
  ∀ (m : OpcodeMap) (s t : State) (r : Reg), stepWith m s = .next t → t.pc = s.pushAddress →
    (decode m s.fetch = .ok (.push r.byte) → r ≠ sp → t.fetch.ir = s.reg r) ∧
    (decode m s.fetch = .ok (.call r.byte) → t.fetch.ir.toNat = (s.pc.toNat + 2) % 256)

/-! The branches (43_branch.md). -/

/-- 43_branch.md R140: JUMP, JUMP_IF_EQUAL and JUMP_IF_NOT_EQUAL go to the register's value unchanged or on by 2 bytes, the conditional
ones by the EQUAL bit, and change nothing but the pc. -/
def Obligations.BranchesGoToTheRegisterOrOn : Prop :=
  ∀ (r : Reg) (s : State),
    exec (.jump r.byte) s = .next { s with pc := s.reg r } ∧
    ∃ on : Byte, on.toNat = (s.pc.toNat + 2) % 256 ∧
      exec (.jumpIfEqual r.byte) s = .next { s with pc := if s.fl = .equal then s.reg r else on } ∧
      exec (.jumpIfNotEqual r.byte) s = .next { s with pc := if s.fl = .equal then on else s.reg r }

/-- 43_branch.md R143 (derived there): for every FL exactly one of the two conditional jumps is taken. -/
def Obligations.ExactlyOneConditionalJumpIsTaken : Prop :=
  ∀ (r : Reg) (s : State), ∃ t u, exec (.jumpIfEqual r.byte) s = .next t ∧ exec (.jumpIfNotEqual r.byte) s = .next u ∧
    ((t.pc = s.reg r ∧ AdvancesPc 2 s u) ∨ (AdvancesPc 2 s t ∧ u.pc = s.reg r))

/-- 43_branch.md R141, 40_dispatch.md R88 (95_test_vectors.md B10): a JUMP to its own address is a run that never ends. -/
def Obligations.JumpToItselfNeverEnds : Prop :=
  ∀ (m : OpcodeMap) (s : State) (r : Reg), Enabled s → decode m s.fetch = .ok (.jump r.byte) → s.reg r = s.pc → NeverEnds m s

/-! Memory (20_memory.md). -/

/-- 20_memory.md R47, R44: a write changes only the cell written, in every memory. -/
def Obligations.WriteChangesOnlyTheCellWritten : Prop :=
  ∀ (mem : Memory) (a b v : Byte), (mem.write a v).read b = if b = a then v else mem.read b

/-- 20_memory.md R51, R56: after any sequence of writes to a reset memory, a read returns the last value written to that address, or 0
if there is none. -/
def Obligations.ReadReturnsTheLastWrite : Prop :=
  ∀ (ws : List (Byte × Byte)) (a : Byte),
    (ws.foldl (fun mem w => mem.write w.1 w.2) State.reset.mem).read a =
      ((ws.reverse.find? fun w => w.1 == a).map Prod.snd).getD 0

/-- The model's memory is canonical (log entry 17): canonical memories that read alike are equal data, and a write keeps the form. -/
def Obligations.CanonicalMemoriesThatReadAlikeAreEqual : Prop :=
  ∀ m n : Memory, m.wf → n.wf → ((∀ a : Byte, m.read a = n.read a) ↔ m = n) ∧ ∀ a v : Byte, (m.write a v).wf

/-- 20_memory.md R57, R183, R184: loading a program of at most 256 bytes after reset puts byte i at address i and leaves every other cell 0
and everything but memory at its reset value. -/
def Obligations.LoadedProgramStandsFromAddressZero : Prop :=
  ∀ p : List Byte, p.length ≤ 256 →
    (∀ a : Byte, (State.reset.loadProgram p).mem.read a = p.getD a.toNat 0) ∧
    State.reset.loadProgram p = { State.reset with mem := (State.reset.loadProgram p).mem }

/-! Reset and the interface (70_reset_and_hazards.md, 40_dispatch.md R89). -/

/-- 20_memory.md R56, 10_state.md R25, 70_reset_and_hazards.md R181: after reset every cell and every register reads 0 and the first
instruction is fetched at address 0. -/
def Obligations.ResetZeroesMemoryRegistersAndPc : Prop :=
  (∀ a : Byte, State.reset.mem.read a = 0) ∧ (∀ r : Reg, State.reset.reg r = 0) ∧ State.reset.pc = 0 ∧
  ∀ p : List Byte, (State.reset.loadProgram p).fetch.ir = (State.reset.loadProgram p).mem.read 0

/-- 70_reset_and_hazards.md R182: the flag is EQUAL, the machine runs, no fault is recorded and nothing has been output (the spec's
decisions D5, D7 and D15, log entries 3, 4 and 19). -/
def Obligations.ResetLeavesAnEnabledMachine : Prop :=
  State.reset.fl = .equal ∧ State.reset.running = true ∧ State.reset.fault = none ∧ State.reset.out = [] ∧ Enabled State.reset

/-- 40_dispatch.md R89, 70_reset_and_hazards.md R180, R184: load acts before the first step and is refused after it, reset acts always
(the spec's decision D14, log entry 14). -/
def Obligations.LoadIsAllowedOnlyBeforeTheFirstStep : Prop :=
  ∀ (m : OpcodeMap) (b : Block) (a v : Byte),
    b.command m .reset = .next ⟨false, State.reset⟩ ∧
    (b.started = false → b.command m (.load a v) = .next ⟨false, { b.core with mem := b.core.mem.write a v }⟩) ∧
    (b.started = true → b.command m (.load a v) = .refused .loadDuringRun) ∧
    (∀ t, stepWith m b.core = .next t ↔ b.command m .step = .next ⟨true, t⟩) ∧
    ∀ b', b.command m .step = .next b' → b'.started = true

/-- 60_exceptions.md R167: a faulted machine, as a halted one, leaves its stop only by reset, which discards the fault record; there is no
return from a fault. The premise says that the stop was reached by steps (log entry 14), and every input keeps it. -/
def Obligations.OnlyResetLeavesAStop : Prop :=
  ∀ (m : OpcodeMap) (b b' : Block) (c : Command), (Stopped b.core → b.started = true) → b.command m c = .next b' →
    (Stopped b'.core → b'.started = true) ∧
    (Stopped b.core → c = .reset ∧ b'.core = State.reset ∧ b'.core.fault = none)

/-! Runs (40_dispatch.md R88, 70_reset_and_hazards.md R189). -/

/-- 40_dispatch.md R88: a run ends in exactly one of three ways: halted, faulted, or never, when every step is followed by another; a
halted end is reached only by HALT, and a faulted end keeps its record. -/
def Obligations.RunEndsInExactlyOneWay : Prop :=
  ∀ (m : OpcodeMap) (s : State),
    (NeverEnds m s ∨ ∃ o, EndsWith m s o) ∧ (NeverEnds m s → ∀ o, ¬ EndsWith m s o) ∧
    (∀ o o', EndsWith m s o → EndsWith m s o' → o = o') ∧
    (∀ o, EndsWith m s o → (o.kind = .halted ∧ Halted o.final) ∨ (o.kind = .faulted ∧ Faulted o.final)) ∧
    (NeverEnds m s ↔ ∀ n, ∃ t, afterSteps m n s = some t) ∧
    (Enabled s → ∀ t, EndsWith m s ⟨.halted, t⟩ →
      ∃ (n : Nat) (u : State), afterSteps m n s = some u ∧ decode m u.fetch = .ok .halt ∧ stepWith m u = .next t)

/-- 70_reset_and_hazards.md R189, 40_dispatch.md R88: a run that took a step ends only by HALT or by a fault, raised by its last step. -/
def Obligations.RunsEndOnlyByHaltOrFault : Prop :=
  ∀ (m : OpcodeMap) (s : State) (o : Observation), Enabled s → EndsWith m s o →
    ∃ (n : Nat) (u : State), afterSteps m n s = some u ∧ Enabled u ∧ stepWith m u = .next o.final ∧
      ((o.kind = .halted ∧ decode m u.fetch = .ok .halt) ∨
       (o.kind = .faulted ∧ ∃ r, o.final = { u with fault := some r } ∧ r.Describes m u))

/-! The invariant. -/

/-- The invariant holds at reset and after any program is loaded. -/
def Obligations.ResetAndLoadedStatesMeetTheInvariant : Prop :=
  ∀ m : OpcodeMap, State.reset.Inv m ∧ ∀ p : List Byte, (State.reset.loadProgram p).Inv m

/-- The headline: from EVERY state that meets the invariant a step gives a state that meets it, under every opcode map. Memory stays
canonical over the 256 addresses; a recorded fault leaves the running flag set, names the pc of the offending instruction and the byte
that caused it, and is never UnsupportedALUOperation (10_state.md R33, 60_exceptions.md R161). -/
def Obligations.EveryStepKeepsTheInvariant : Prop :=
  ∀ (m : OpcodeMap) (s t : State), s.Inv m → stepWith m s = .next t → t.Inv m

/-- 10_state.md R30: in the byte layout 0b00000LGE exactly one of the three bits is set and it names the flag (a layout from general
knowledge, decision D6, log entry 3). -/
def Obligations.FlagLayoutHasExactlyOneBit : Prop :=
  ∀ f : Flag, (f.bits.getLsbD 2 = true ↔ f = .less) ∧ (f.bits.getLsbD 1 = true ↔ f = .greater) ∧
    (f.bits.getLsbD 0 = true ↔ f = .equal) ∧ f.bits.toNat < 8
end

