-- ==== Sys2Proof/Laws/Arithmetic.lean ====
section
/-! SUPPORT. What `wrap8` computes on the sums, the difference and the product the core uses (00_scope.md R12). -/

namespace Sys2Proof

theorem wrap8_toNat (e : Int) : ((wrap8 e).toNat : Int) = e % 256 := by
  unfold wrap8
  rw [BitVec.toNat_ofInt]
  omega

@[simp] theorem wrap8_natCast_toNat (n : Nat) : (wrap8 (n : Int)).toNat = n % 256 := by
  have := wrap8_toNat (n : Int)
  omega

@[simp] theorem wrap8_add_toNat (x : Byte) (n : Nat) : (wrap8 ((x.toNat : Int) + n)).toNat = (x.toNat + n) % 256 := by
  have := wrap8_toNat ((x.toNat : Int) + n)
  omega

@[simp] theorem wrap8_add_one_toNat (x : Byte) : (wrap8 ((x.toNat : Int) + 1)).toNat = (x.toNat + 1) % 256 :=
  wrap8_add_toNat x 1

@[simp] theorem wrap8_add_two_toNat (x : Byte) : (wrap8 ((x.toNat : Int) + 2)).toNat = (x.toNat + 2) % 256 :=
  wrap8_add_toNat x 2

@[simp] theorem wrap8_sub_one_toNat (x : Byte) : (wrap8 ((x.toNat : Int) - 1)).toNat = (x.toNat + 255) % 256 := by
  have := wrap8_toNat ((x.toNat : Int) - 1)
  omega

/-- Incrementing the decremented value gives it back: a pop undoes a push (42_stack.md R121). -/
theorem wrap8_sub_one_add_one (x : Byte) : wrap8 (((wrap8 ((x.toNat : Int) - 1)).toNat : Int) + 1) = x := by
  apply BitVec.eq_of_toNat_eq
  rw [wrap8_add_one_toNat, wrap8_sub_one_toNat]
  have := x.isLt
  omega

namespace Machine

@[simp] theorem addBytes_toNat (u v : Byte) : (addBytes u v).toNat = (u.toNat + v.toNat) % 256 := by
  unfold addBytes
  exact wrap8_add_toNat u v.toNat

@[simp] theorem mulBytes_toNat (u v : Byte) : (mulBytes u v).toNat = (u.toNat * v.toNat) % 256 := by
  unfold mulBytes
  have := wrap8_natCast_toNat (u.toNat * v.toNat)
  rwa [Nat.cast_mul] at this

theorem State.pushAddress_toNat (s : State) : s.pushAddress.toNat = ((s.reg sp).toNat + 255) % 256 :=
  wrap8_sub_one_toNat _

/-- A pop's increment undoes a push's decrement. -/
@[simp] theorem State.pushAddress_add_one (s : State) : wrap8 ((s.pushAddress.toNat : Int) + 1) = s.reg sp :=
  wrap8_sub_one_add_one _

theorem State.advance_pc_toNat (s : State) (n : Nat) : (s.advance n).pc.toNat = (s.pc.toNat + n) % 256 :=
  wrap8_add_toNat _ _

end Machine
end Sys2Proof
end

