-- ==== Sys2Proof/Laws/Decoding.lean ====
section
/-! SUPPORT. What the lookup and the decoder can answer (30_encoding.md R68, 40_dispatch.md R82). -/

namespace Sys2Proof

theorem Mnemonic.mem_all (k : Mnemonic) : k ∈ Mnemonic.all := by cases k <;> decide

/-- A lookup that finds an entry finds one with that opcode byte. -/
theorem OpcodeMap.lookup_some {m : OpcodeMap} {ir : Byte} {k : Mnemonic} (h : m.lookup ir = some k) : m k = ir := by
  simpa using List.find?_some h

/-- A lookup finds nothing exactly when no entry has the byte. -/
theorem OpcodeMap.lookup_none {m : OpcodeMap} {ir : Byte} : m.lookup ir = none ↔ ∀ k, m k ≠ ir := by
  unfold OpcodeMap.lookup
  rw [List.find?_eq_none]
  exact ⟨fun h k => by simpa using h k k.mem_all, fun h k _ => by simpa using h k⟩

/-- Under an injective map the lookup of an entry's byte is that entry. -/
theorem OpcodeMap.lookup_of_valid {m : OpcodeMap} (hm : m.Valid) (k : Mnemonic) : m.lookup (m k) = some k := by
  cases h : m.lookup (m k) with
  | none => exact absurd rfl (OpcodeMap.lookup_none.mp h k)
  | some j => rw [hm.1 j k (OpcodeMap.lookup_some h)]

@[simp] theorem Mnemonic.mnemonic_instr (k : Mnemonic) (a b : Byte) : (k.instr a b).mnemonic = k := by cases k <;> rfl

/-- The operands an entry takes are the first bytes of A, B, as many as its length says. -/
theorem Mnemonic.operands_instr (k : Mnemonic) (a b : Byte) :
    (k.instr a b).operands = [a, b].take (k.format.length - 1) := by cases k <;> rfl

/-- Everything the decoder can answer. -/
theorem decode_cases (m : OpcodeMap) (w : Fetched) :
    (∃ k, m.lookup w.ir = some k ∧ m k = w.ir ∧ decode m w = .ok (k.instr w.a w.b)) ∨
      ((∀ k, m k ≠ w.ir) ∧ decode m w = .error (.invalidOpcode w.ir)) := by
  unfold decode
  cases h : m.lookup w.ir with
  | some k => exact .inl ⟨k, rfl, OpcodeMap.lookup_some h, rfl⟩
  | none => exact .inr ⟨OpcodeMap.lookup_none.mp h, rfl⟩

theorem decode_of_lookup {m : OpcodeMap} {w : Fetched} {k : Mnemonic} (h : m.lookup w.ir = some k) :
    decode m w = .ok (k.instr w.a w.b) := by
  simp [decode, h]

theorem decode_of_illegal {m : OpcodeMap} {w : Fetched} (h : ∀ k, m k ≠ w.ir) :
    decode m w = .error (.invalidOpcode w.ir) := by
  simp [decode, OpcodeMap.lookup_none.mpr h]

end Sys2Proof
end

