-- ==== Sys2Proof/Laws/Memory.lean ====
section
/-! SUPPORT. The laws of memory (20_memory.md R47, R51): read after write, the canonical form, equality by reads. -/

namespace Sys2Proof.Machine

theorem Memory.read_erase (m : Memory) (a b : Byte) :
    (m.erase a).read b = if b = a then Memory.unlisted else m.read b := by
  induction m with
  | nil => simp [Memory.erase, Memory.read]
  | cons c rest ih =>
    unfold Memory.erase at ih ⊢
    by_cases hc : c.1 = a.toNat
    · simp only [List.filter_cons, hc, bne_self_eq_false, Bool.false_eq_true, if_false, ih, Memory.read]
      split <;> rename_i h
      · rfl
      · rw [if_neg (fun e => h (BitVec.eq_of_toNat_eq e.symm))]
    · have hne : (c.1 != a.toNat) = true := by simpa using hc
      simp only [List.filter_cons, hne, if_true, Memory.read, ih]
      by_cases hb : c.1 = b.toNat
      · have : b ≠ a := fun e => hc (e ▸ hb)
        simp [hb, this]
      · simp [hb]

theorem Memory.read_insert (m : Memory) (a b v : Byte) (h : m.read a = Memory.unlisted ∧ ∀ c ∈ m, c.1 ≠ a.toNat) :
    (m.insert a v).read b = if b = a then v else m.read b := by
  induction m with
  | nil =>
    simp only [Memory.insert, Memory.read, eq_comm (a := a.toNat), BitVec.toNat_inj]
  | cons c rest ih =>
    obtain ⟨-, hno⟩ := h
    have hca : c.1 ≠ a.toNat := hno c (by simp)
    have hrest : ∀ d ∈ rest, d.1 ≠ a.toNat := fun d hd => hno d (by simp [hd])
    have hra : Memory.read rest a = Memory.unlisted := by
      clear ih hno
      induction rest with
      | nil => rfl
      | cons d rest ih =>
        have hd : d.1 ≠ a.toNat := hrest d (by simp)
        simp only [Memory.read, hd, if_false]
        exact ih (fun e he => hrest e (by simp [he]))
    unfold Memory.insert
    split
    · simp only [Memory.read, eq_comm (a := a.toNat), BitVec.toNat_inj]
    · simp only [Memory.read, ih ⟨hra, hrest⟩]
      split <;> rename_i hcb
      · have : b ≠ a := fun e => hca (e ▸ hcb)
        simp [this]
      · rfl

theorem Memory.mem_erase {m : Memory} {a : Byte} {c : Host.Cell} : c ∈ m.erase a ↔ c ∈ m ∧ c.1 ≠ a.toNat := by
  simp [Memory.erase]

/-- The basic law of memory: a read returns the value just written at its address, and what it returned before elsewhere. -/
theorem Memory.read_write (m : Memory) (a b v : Byte) : (m.write a v).read b = if b = a then v else m.read b := by
  unfold Memory.write
  split <;> rename_i hv
  · rw [Memory.read_erase, hv]
  · rw [Memory.read_insert _ _ _ _ ⟨by simp [Memory.read_erase], fun c hc => (Memory.mem_erase.mp hc).2⟩, Memory.read_erase]
    split <;> rfl

theorem Memory.read_write_same (m : Memory) (a v : Byte) : (m.write a v).read a = v := by
  simp [Memory.read_write]

theorem Memory.read_write_other (m : Memory) {a b : Byte} (v : Byte) (h : b ≠ a) : (m.write a v).read b = m.read b := by
  simp [Memory.read_write, h]

theorem Memory.wf_nil : Memory.wf [] := by simp [Memory.wf]

theorem Memory.wf_erase {m : Memory} (h : m.wf) (a : Byte) : (m.erase a).wf :=
  ⟨h.1.sublist List.filter_sublist, fun c hc => h.2 c (Memory.mem_erase.mp hc).1⟩

theorem Memory.mem_insert {m : Memory} {a v : Byte} {c : Host.Cell} (h : c ∈ m.insert a v) : c = (a.toNat, v) ∨ c ∈ m := by
  induction m with
  | nil => simpa [Memory.insert] using h
  | cons d rest ih =>
    unfold Memory.insert at h
    split at h
    · simpa using h
    · rcases List.mem_cons.mp h with h | h
      · simp [h]
      · rcases ih h with h | h <;> simp [h]

theorem Memory.wf_insert {m : Memory} (h : m.wf) (a v : Byte) (hv : v ≠ Memory.unlisted) (hno : ∀ c ∈ m, c.1 ≠ a.toNat) :
    (m.insert a v).wf := by
  refine ⟨?_, fun c hc => ?_⟩
  · have hs := h.1
    clear h
    induction m with
    | nil => simp [Memory.insert]
    | cons d rest ih =>
      have hd := List.pairwise_cons.mp hs
      have hda : d.1 ≠ a.toNat := hno d (by simp)
      unfold Memory.insert
      split <;> rename_i hlt
      · refine List.pairwise_cons.mpr ⟨fun c hc => ?_, hs⟩
        rcases List.mem_cons.mp hc with rfl | hc
        · exact hlt
        · exact Nat.lt_trans hlt (hd.1 c hc)
      · refine List.pairwise_cons.mpr ⟨fun c hc => ?_, ih (fun c hc => hno c (by simp [hc])) hd.2⟩
        rcases Memory.mem_insert hc with rfl | hc
        · simp only; omega
        · exact hd.1 c hc
  · rcases Memory.mem_insert hc with rfl | hc
    · exact ⟨a.isLt, hv⟩
    · exact h.2 c hc

/-- Every write keeps the canonical form. -/
theorem Memory.wf_write {m : Memory} (h : m.wf) (a v : Byte) : (m.write a v).wf := by
  unfold Memory.write
  split <;> rename_i hv
  · exact Memory.wf_erase h a
  · exact Memory.wf_insert (Memory.wf_erase h a) a v hv fun c hc => (Memory.mem_erase.mp hc).2

/-- An address below every entry reads as unlisted. -/
theorem Memory.read_of_lt {m : Memory} {a : Byte} (h : ∀ c ∈ m, a.toNat < c.1) : m.read a = Memory.unlisted := by
  induction m with
  | nil => rfl
  | cons c rest ih =>
    have hc : c.1 ≠ a.toNat := by have := h c (by simp); omega
    simp only [Memory.read, hc, if_false]
    exact ih fun d hd => h d (by simp [hd])

theorem Memory.wf_tail {c : Host.Cell} {rest : Memory} (h : Memory.wf (c :: rest)) :
    Memory.wf rest ∧ (∀ d ∈ rest, c.1 < d.1) ∧ c.1 < 256 ∧ c.2 ≠ Memory.unlisted :=
  have hp := List.pairwise_cons.mp h.1
  ⟨⟨hp.2, fun d hd => h.2 d (by simp [hd])⟩, hp.1, h.2 c (by simp)⟩

/-- The first entry of a canonical memory is what its address reads as. -/
theorem Memory.read_head {c : Host.Cell} {rest : Memory} (h : c.1 < 256) :
    Memory.read (c :: rest) (BitVec.ofNat 8 c.1) = c.2 := by
  have : (BitVec.ofNat 8 c.1).toNat = c.1 := by simpa using Nat.mod_eq_of_lt h
  simp [Memory.read, this]

/-- Loading keeps the canonical form. -/
theorem State.loadFrom_wf (p : List Byte) : ∀ (s : State) (start : Nat), s.mem.wf → (s.loadFrom start p).mem.wf := by
  induction p with
  | nil => exact fun _ _ h => h
  | cons v rest ih => exact fun s start h => ih _ _ (Memory.wf_write h _ _)

end Sys2Proof.Machine
end

