-- ==== Sys2Proof/Laws/Operands.lean ====
section
/-! SUPPORT. What operand decoding and the register check can answer (30_encoding.md R63, 40_dispatch.md R80). -/

namespace Sys2Proof.Machine

@[simp] theorem Reg.byte_toNat (r : Reg) : r.byte.toNat = r.val := by
  have := r.isLt
  simp only [Reg.byte, BitVec.toNat_ofNat]
  omega

@[simp] theorem regOperand_byte (r : Reg) : regOperand r.byte = some r := by
  have := r.isLt
  simp [regOperand, Reg.byte_toNat]

theorem regOperand_some {b : Byte} {r : Reg} (h : regOperand b = some r) : b = r.byte := by
  unfold regOperand at h
  split at h
  · cases h
    exact BitVec.eq_of_toNat_eq (by simp)
  · cases h

theorem regOperand_none {b : Byte} : regOperand b = none ↔ 8 ≤ b.toNat := by
  unfold regOperand
  split <;> simp <;> omega

theorem Reg.byte_inj {r q : Reg} : r.byte = q.byte ↔ r = q :=
  ⟨fun h => by have := congrArg regOperand h; simpa using this, fun h => h ▸ rfl⟩

@[simp] theorem sp_byte : Reg.byte sp = 7 := rfl

/-- A register operand is valid exactly when it is the byte of a register. -/
theorem validRegisterByte_iff {b : Byte} : validRegisterByte b = true ↔ ∃ r : Reg, b = r.byte := by
  unfold validRegisterByte
  constructor
  · intro h
    have h : b.toNat < 8 := by simpa using h
    exact ⟨⟨b.toNat, h⟩, BitVec.eq_of_toNat_eq (by simp)⟩
  · rintro ⟨r, rfl⟩
    simp

@[simp] theorem withReg_byte (r : Reg) (s : State) (f : Reg → State) : withReg r.byte s f = .next (f r) := by
  simp [withReg]

theorem withReg_bad {a : Byte} (h : 8 ≤ a.toNat) (s : State) (f : Reg → State) :
    withReg a s f = .next (s.raiseInvalidRegister a) := by
  simp [withReg, regOperand_none.mpr h]

@[simp] theorem withRegs_byte (r q : Reg) (s : State) (f : Reg → Reg → State) :
    withRegs r.byte q.byte s f = .next (f r q) := by
  simp [withRegs]

theorem withRegs_bad_a {a : Byte} (h : 8 ≤ a.toNat) (b : Byte) (s : State) (f : Reg → Reg → State) :
    withRegs a b s f = .next (s.raiseInvalidRegister a) := by
  simp [withRegs, regOperand_none.mpr h]

theorem withRegs_bad_b (r : Reg) {b : Byte} (h : 8 ≤ b.toNat) (s : State) (f : Reg → Reg → State) :
    withRegs r.byte b s f = .next (s.raiseInvalidRegister b) := by
  simp [withRegs, withReg_bad h]

/-- A byte is the byte of a register or at least 8. -/
theorem register_or_bad (b : Byte) : (∃ r : Reg, b = r.byte) ∨ 8 ≤ b.toNat := by
  cases h : regOperand b with
  | some r => exact .inl ⟨r, regOperand_some h⟩
  | none => exact .inr (regOperand_none.mp h)

/-- Everything the register check of one operand can answer. -/
theorem withReg_cases (a : Byte) (s : State) (f : Reg → State) :
    (∃ r : Reg, a = r.byte ∧ withReg a s f = .next (f r)) ∨
      (8 ≤ a.toNat ∧ withReg a s f = .next (s.raiseInvalidRegister a)) := by
  rcases register_or_bad a with ⟨r, rfl⟩ | h
  · exact .inl ⟨r, rfl, withReg_byte r s f⟩
  · exact .inr ⟨h, withReg_bad h s f⟩

/-- Everything the register check of two operands can answer. -/
theorem withRegs_cases (a b : Byte) (s : State) (f : Reg → Reg → State) :
    (∃ r q : Reg, a = r.byte ∧ b = q.byte ∧ withRegs a b s f = .next (f r q)) ∨
      ∃ bad ∈ [a, b], 8 ≤ bad.toNat ∧ withRegs a b s f = .next (s.raiseInvalidRegister bad) := by
  rcases register_or_bad a with ⟨r, rfl⟩ | h
  · rcases register_or_bad b with ⟨q, rfl⟩ | h
    · exact .inl ⟨r, q, rfl, rfl, withRegs_byte r q s f⟩
    · exact .inr ⟨b, by simp, h, withRegs_bad_b r h s f⟩
  · exact .inr ⟨a, by simp, h, withRegs_bad_a h b s f⟩

end Sys2Proof.Machine
end

