-- ==== Sys2Proof/Laws/State.lean ====
section
/-! SUPPORT. The small lemmas of the state updates: one per field per update, and the register file's read after write. -/

namespace Sys2Proof.Machine

section setReg
variable (s : State) (r : Reg) (v : Byte)
@[simp] theorem State.setReg_mem : (s.setReg r v).mem = s.mem := rfl
@[simp] theorem State.setReg_pc : (s.setReg r v).pc = s.pc := rfl
@[simp] theorem State.setReg_fl : (s.setReg r v).fl = s.fl := rfl
@[simp] theorem State.setReg_running : (s.setReg r v).running = s.running := rfl
@[simp] theorem State.setReg_fault : (s.setReg r v).fault = s.fault := rfl
@[simp] theorem State.setReg_out : (s.setReg r v).out = s.out := rfl
end setReg

section setPc
variable (s : State) (p : Byte) (r : Reg)
@[simp] theorem State.setPc_mem : (s.setPc p).mem = s.mem := rfl
@[simp] theorem State.setPc_reg : (s.setPc p).reg r = s.reg r := rfl
@[simp] theorem State.setPc_pc : (s.setPc p).pc = p := rfl
@[simp] theorem State.setPc_fl : (s.setPc p).fl = s.fl := rfl
@[simp] theorem State.setPc_running : (s.setPc p).running = s.running := rfl
@[simp] theorem State.setPc_fault : (s.setPc p).fault = s.fault := rfl
@[simp] theorem State.setPc_out : (s.setPc p).out = s.out := rfl
end setPc

section advance
variable (s : State) (n : Nat) (r : Reg)
@[simp] theorem State.advance_mem : (s.advance n).mem = s.mem := rfl
@[simp] theorem State.advance_reg : (s.advance n).reg r = s.reg r := rfl
@[simp] theorem State.advance_fl : (s.advance n).fl = s.fl := rfl
@[simp] theorem State.advance_running : (s.advance n).running = s.running := rfl
@[simp] theorem State.advance_fault : (s.advance n).fault = s.fault := rfl
@[simp] theorem State.advance_out : (s.advance n).out = s.out := rfl
end advance

section setFlag
variable (s : State) (f : Flag) (r : Reg)
@[simp] theorem State.setFlag_mem : (s.setFlag f).mem = s.mem := rfl
@[simp] theorem State.setFlag_reg : (s.setFlag f).reg r = s.reg r := rfl
@[simp] theorem State.setFlag_pc : (s.setFlag f).pc = s.pc := rfl
@[simp] theorem State.setFlag_fl : (s.setFlag f).fl = f := rfl
@[simp] theorem State.setFlag_running : (s.setFlag f).running = s.running := rfl
@[simp] theorem State.setFlag_fault : (s.setFlag f).fault = s.fault := rfl
@[simp] theorem State.setFlag_out : (s.setFlag f).out = s.out := rfl
end setFlag

section stopRunning
variable (s : State) (r : Reg)
@[simp] theorem State.stopRunning_mem : s.stopRunning.mem = s.mem := rfl
@[simp] theorem State.stopRunning_reg : s.stopRunning.reg r = s.reg r := rfl
@[simp] theorem State.stopRunning_pc : s.stopRunning.pc = s.pc := rfl
@[simp] theorem State.stopRunning_fl : s.stopRunning.fl = s.fl := rfl
@[simp] theorem State.stopRunning_running : s.stopRunning.running = false := rfl
@[simp] theorem State.stopRunning_fault : s.stopRunning.fault = s.fault := rfl
@[simp] theorem State.stopRunning_out : s.stopRunning.out = s.out := rfl
end stopRunning

section emit
variable (s : State) (v : Byte) (r : Reg)
@[simp] theorem State.emit_mem : (s.emit v).mem = s.mem := rfl
@[simp] theorem State.emit_reg : (s.emit v).reg r = s.reg r := rfl
@[simp] theorem State.emit_pc : (s.emit v).pc = s.pc := rfl
@[simp] theorem State.emit_fl : (s.emit v).fl = s.fl := rfl
@[simp] theorem State.emit_running : (s.emit v).running = s.running := rfl
@[simp] theorem State.emit_fault : (s.emit v).fault = s.fault := rfl
@[simp] theorem State.emit_out : (s.emit v).out = s.out ++ [v] := rfl
end emit

section store
variable (s : State) (a v : Byte) (r : Reg)
@[simp] theorem State.store_mem : (s.store a v).mem = s.mem.write a v := rfl
@[simp] theorem State.store_reg : (s.store a v).reg r = s.reg r := rfl
@[simp] theorem State.store_pc : (s.store a v).pc = s.pc := rfl
@[simp] theorem State.store_fl : (s.store a v).fl = s.fl := rfl
@[simp] theorem State.store_running : (s.store a v).running = s.running := rfl
@[simp] theorem State.store_fault : (s.store a v).fault = s.fault := rfl
@[simp] theorem State.store_out : (s.store a v).out = s.out := rfl
end store

section raise
variable (s : State) (c : FaultCode) (b : Byte) (r : Reg)
@[simp] theorem State.raise_mem : (s.raise c b).mem = s.mem := rfl
@[simp] theorem State.raise_reg : (s.raise c b).reg r = s.reg r := rfl
@[simp] theorem State.raise_pc : (s.raise c b).pc = s.pc := rfl
@[simp] theorem State.raise_fl : (s.raise c b).fl = s.fl := rfl
@[simp] theorem State.raise_running : (s.raise c b).running = s.running := rfl
@[simp] theorem State.raise_fault : (s.raise c b).fault = some ⟨c, s.pc, b⟩ := rfl
@[simp] theorem State.raise_out : (s.raise c b).out = s.out := rfl
end raise

/-- A register reads what was last written to it; the others are untouched (10_state.md R21, R23). -/
theorem State.reg_setReg (s : State) (r q : Reg) (v : Byte) :
    (s.setReg r v).reg q = if q = r then v else s.reg q := by
  unfold State.reg State.setReg
  simp only [Fin.getElem_fin, Vector.getElem_set, Fin.ext_iff, eq_comm]

@[simp] theorem State.reg_setReg_same (s : State) (r : Reg) (v : Byte) : (s.setReg r v).reg r = v := by
  simp [State.reg_setReg]

theorem State.reg_setReg_other (s : State) {r q : Reg} (v : Byte) (h : q ≠ r) : (s.setReg r v).reg q = s.reg q := by
  simp [State.reg_setReg, h]

/-- The last of two writes to one register wins. -/
@[simp] theorem State.setReg_setReg_same (s : State) (r : Reg) (u v : Byte) :
    (s.setReg r u).setReg r v = s.setReg r v := by
  simp [State.setReg]

/-- Writes to two registers commute. -/
theorem State.setReg_comm (s : State) {r q : Reg} (u v : Byte) (h : r ≠ q) :
    (s.setReg r u).setReg q v = (s.setReg q v).setReg r u := by
  simp only [State.setReg]
  rw [Vector.set_comm]
  exact fun e => h (Fin.ext e)

section stack
variable (s : State) (v : Byte) (r : Reg)
@[simp] theorem State.pushByte_mem : (s.pushByte v).mem = s.mem.write s.pushAddress v := rfl
@[simp] theorem State.pushByte_pc : (s.pushByte v).pc = s.pc := rfl
@[simp] theorem State.pushByte_fl : (s.pushByte v).fl = s.fl := rfl
@[simp] theorem State.pushByte_running : (s.pushByte v).running = s.running := rfl
@[simp] theorem State.pushByte_fault : (s.pushByte v).fault = s.fault := rfl
@[simp] theorem State.pushByte_out : (s.pushByte v).out = s.out := rfl
@[simp] theorem State.dropByte_mem : s.dropByte.mem = s.mem := rfl
@[simp] theorem State.dropByte_pc : s.dropByte.pc = s.pc := rfl
@[simp] theorem State.dropByte_fl : s.dropByte.fl = s.fl := rfl
@[simp] theorem State.dropByte_running : s.dropByte.running = s.running := rfl
@[simp] theorem State.dropByte_fault : s.dropByte.fault = s.fault := rfl
@[simp] theorem State.dropByte_out : s.dropByte.out = s.out := rfl

theorem State.pushByte_reg : (s.pushByte v).reg r = if r = sp then s.pushAddress else s.reg r :=
  State.reg_setReg s sp r s.pushAddress

theorem State.dropByte_reg : s.dropByte.reg r = if r = sp then wrap8 ((s.reg sp).toNat + 1) else s.reg r :=
  State.reg_setReg s sp r _

theorem State.topByte_eq : s.topByte = s.mem.read (s.reg sp) := rfl
end stack

/-- Two states with the same registers, one by one, have the same register file. -/
theorem State.x_ext {s t : State} (h : ∀ r : Reg, t.reg r = s.reg r) : t.x = s.x := by
  apply Vector.ext
  intro i hi
  exact h ⟨i, hi⟩

end Sys2Proof.Machine
end

