-- ==== Sys2Proof/Laws/Exec.lean ====
section
/-! SUPPORT. One lemma per instruction that says its whole effect on valid register operands, and one case lemma that says everything
any instruction can do; later proofs cite these and unfold no meaning. -/

namespace Sys2Proof.Machine

theorem exec_halt (s : State) : exec .halt s = .next s.stopRunning := rfl

theorem exec_loadImmediate (r : Reg) (b : Byte) (s : State) :
    exec (.loadImmediate r.byte b) s = .next ((s.setReg r b).advance 3) := withReg_byte r s _

theorem exec_printRegister (r : Reg) (s : State) :
    exec (.printRegister r.byte) s = .next ((s.emit (s.reg r)).advance 2) := withReg_byte r s _

theorem exec_add (r q : Reg) (s : State) :
    exec (.add r.byte q.byte) s = .next ((s.setReg r (addBytes (s.reg r) (s.reg q))).advance 3) := withRegs_byte r q s _

theorem exec_multiply (r q : Reg) (s : State) :
    exec (.multiply r.byte q.byte) s = .next ((s.setReg r (mulBytes (s.reg r) (s.reg q))).advance 3) := withRegs_byte r q s _

theorem exec_compare (r q : Reg) (s : State) :
    exec (.compare r.byte q.byte) s = .next ((s.setFlag (compareFlag (s.reg r) (s.reg q))).advance 3) := withRegs_byte r q s _

theorem execPushWith_byte (p : PushSpSource) (r : Reg) (s : State) :
    execPushWith p r.byte s = .next ((s.pushByte (pushedValue p s r)).advance 2) := withReg_byte r s _

theorem exec_push (r : Reg) (s : State) :
    exec (.push r.byte) s = .next ((s.pushByte (pushedValue Config.pushSpSource s r)).advance 2) := execPushWith_byte _ r s

theorem execPopWith_byte (q : PopSpResult) (r : Reg) (s : State) :
    execPopWith q r.byte s = .next ((s.dropByte.setReg r (poppedValue q s.topByte r)).advance 2) := withReg_byte r s _

theorem exec_pop (r : Reg) (s : State) :
    exec (.pop r.byte) s = .next ((s.dropByte.setReg r (poppedValue Config.popSpResult s.topByte r)).advance 2) :=
  execPopWith_byte _ r s

theorem exec_call (r : Reg) (s : State) :
    exec (.call r.byte) s =
      .next ((s.pushByte (wrap8 (s.pc.toNat + 2))).setPc ((s.pushByte (wrap8 (s.pc.toNat + 2))).reg r)) := withReg_byte r s _

theorem exec_ret (s : State) : exec .ret s = .next (s.dropByte.setPc s.topByte) := rfl

theorem exec_jump (r : Reg) (s : State) : exec (.jump r.byte) s = .next (s.setPc (s.reg r)) := withReg_byte r s _

theorem exec_jumpIfEqual (r : Reg) (s : State) :
    exec (.jumpIfEqual r.byte) s = .next (if s.fl.isEqual then s.setPc (s.reg r) else s.advance 2) := withReg_byte r s _

theorem exec_jumpIfNotEqual (r : Reg) (s : State) :
    exec (.jumpIfNotEqual r.byte) s = .next (if !s.fl.isEqual then s.setPc (s.reg r) else s.advance 2) := withReg_byte r s _

/-- An instruction with a bad register operand raises InvalidRegister for the first one. -/
theorem exec_bad (i : Instr) (s : State) {bad : Byte}
    (h : i.regOperands.find? (fun r => decide (8 ≤ r.toNat)) = some bad) : exec i s = .next (s.raiseInvalidRegister bad) := by
  have one : ∀ {a : Byte} (f : Reg → State), List.find? (fun r : Byte => decide (8 ≤ r.toNat)) [a] = some bad →
      withReg a s f = .next (s.raiseInvalidRegister bad) := by
    intro a f h
    rw [List.find?_singleton] at h
    split at h <;> rename_i ha
    · cases h
      exact withReg_bad (by simpa using ha) s f
    · cases h
  have two : ∀ {a b : Byte} (f : Reg → Reg → State), List.find? (fun r : Byte => decide (8 ≤ r.toNat)) [a, b] = some bad →
      withRegs a b s f = .next (s.raiseInvalidRegister bad) := by
    intro a b f h
    rcases register_or_bad a with ⟨r, rfl⟩ | ha
    · have hr := r.isLt
      rw [List.find?_cons_of_neg (by simp)] at h
      simpa [withRegs] using one (f r) h
    · rw [List.find?_cons_of_pos (by simpa using ha)] at h
      cases h
      exact withRegs_bad_a ha b s f
  cases i with
  | halt => cases h
  | ret => cases h
  | loadImmediate a b => exact one _ h
  | printRegister a => exact one _ h
  | push a => exact one _ h
  | pop a => exact one _ h
  | call a => exact one _ h
  | jump a => exact one _ h
  | jumpIfEqual a => exact one _ h
  | jumpIfNotEqual a => exact one _ h
  | add a b => exact two _ h
  | multiply a b => exact two _ h
  | compare a b => exact two _ h

/-- Everything an instruction can do: one of its effects on valid register operands, or an InvalidRegister fault. It always
answers a next state. -/
inductive Effect (s : State) : Instr → State → Prop
  | halt : Effect s .halt s.stopRunning
  | loadImmediate (r : Reg) (b : Byte) : Effect s (.loadImmediate r.byte b) ((s.setReg r b).advance 3)
  | printRegister (r : Reg) : Effect s (.printRegister r.byte) ((s.emit (s.reg r)).advance 2)
  | add (r q : Reg) : Effect s (.add r.byte q.byte) ((s.setReg r (addBytes (s.reg r) (s.reg q))).advance 3)
  | multiply (r q : Reg) : Effect s (.multiply r.byte q.byte) ((s.setReg r (mulBytes (s.reg r) (s.reg q))).advance 3)
  | compare (r q : Reg) : Effect s (.compare r.byte q.byte) ((s.setFlag (compareFlag (s.reg r) (s.reg q))).advance 3)
  | push (r : Reg) : Effect s (.push r.byte) ((s.pushByte (pushedValue Config.pushSpSource s r)).advance 2)
  | pop (r : Reg) :
      Effect s (.pop r.byte) ((s.dropByte.setReg r (poppedValue Config.popSpResult s.topByte r)).advance 2)
  | call (r : Reg) :
      Effect s (.call r.byte) ((s.pushByte (wrap8 (s.pc.toNat + 2))).setPc ((s.pushByte (wrap8 (s.pc.toNat + 2))).reg r))
  | ret : Effect s .ret (s.dropByte.setPc s.topByte)
  | jump (r : Reg) : Effect s (.jump r.byte) (s.setPc (s.reg r))
  | jumpIfEqual (r : Reg) : Effect s (.jumpIfEqual r.byte) (if s.fl.isEqual then s.setPc (s.reg r) else s.advance 2)
  | jumpIfNotEqual (r : Reg) : Effect s (.jumpIfNotEqual r.byte) (if !s.fl.isEqual then s.setPc (s.reg r) else s.advance 2)
  | invalidRegister (i : Instr) (bad : Byte) (hmem : bad ∈ i.regOperands) (hbad : 8 ≤ bad.toNat) :
      Effect s i (s.raiseInvalidRegister bad)

theorem exec_effect (i : Instr) (s : State) : ∃ t, exec i s = .next t ∧ Effect s i t := by
  cases hf : i.regOperands.find? (fun r => decide (8 ≤ r.toNat)) with
  | some bad =>
    exact ⟨_, exec_bad i s hf, .invalidRegister i bad (List.mem_of_find?_eq_some hf) (by simpa using List.find?_some hf)⟩
  | none =>
    have good : ∀ a ∈ i.regOperands, ∃ r : Reg, a = r.byte := fun a ha =>
      (register_or_bad a).resolve_right (by simpa using List.find?_eq_none.mp hf a ha)
    cases i with
    | halt => exact ⟨_, rfl, .halt⟩
    | ret => exact ⟨_, rfl, .ret⟩
    | loadImmediate a b =>
      obtain ⟨r, rfl⟩ := good a (by simp [Instr.regOperands])
      exact ⟨_, exec_loadImmediate r b s, .loadImmediate r b⟩
    | printRegister a =>
      obtain ⟨r, rfl⟩ := good a (by simp [Instr.regOperands])
      exact ⟨_, exec_printRegister r s, .printRegister r⟩
    | add a b =>
      obtain ⟨r, rfl⟩ := good a (by simp [Instr.regOperands])
      obtain ⟨q, rfl⟩ := good b (by simp [Instr.regOperands])
      exact ⟨_, exec_add r q s, .add r q⟩
    | multiply a b =>
      obtain ⟨r, rfl⟩ := good a (by simp [Instr.regOperands])
      obtain ⟨q, rfl⟩ := good b (by simp [Instr.regOperands])
      exact ⟨_, exec_multiply r q s, .multiply r q⟩
    | compare a b =>
      obtain ⟨r, rfl⟩ := good a (by simp [Instr.regOperands])
      obtain ⟨q, rfl⟩ := good b (by simp [Instr.regOperands])
      exact ⟨_, exec_compare r q s, .compare r q⟩
    | push a =>
      obtain ⟨r, rfl⟩ := good a (by simp [Instr.regOperands])
      exact ⟨_, exec_push r s, .push r⟩
    | pop a =>
      obtain ⟨r, rfl⟩ := good a (by simp [Instr.regOperands])
      exact ⟨_, exec_pop r s, .pop r⟩
    | call a =>
      obtain ⟨r, rfl⟩ := good a (by simp [Instr.regOperands])
      exact ⟨_, exec_call r s, .call r⟩
    | jump a =>
      obtain ⟨r, rfl⟩ := good a (by simp [Instr.regOperands])
      exact ⟨_, exec_jump r s, .jump r⟩
    | jumpIfEqual a =>
      obtain ⟨r, rfl⟩ := good a (by simp [Instr.regOperands])
      exact ⟨_, exec_jumpIfEqual r s, .jumpIfEqual r⟩
    | jumpIfNotEqual a =>
      obtain ⟨r, rfl⟩ := good a (by simp [Instr.regOperands])
      exact ⟨_, exec_jumpIfNotEqual r s, .jumpIfNotEqual r⟩

/-- The inversion: an instruction that answers `t` had one of the effects. -/
theorem effect_of_exec {i : Instr} {s t : State} (h : exec i s = .next t) : Effect s i t := by
  obtain ⟨u, hu, he⟩ := exec_effect i s
  rw [hu] at h
  cases h
  exact he

end Sys2Proof.Machine
end

