-- ==== Sys2Proof/Laws/Loading.lean ====
section
/-! SUPPORT. What loading bytes leaves in memory (20_memory.md R57). -/

namespace Sys2Proof.Machine

/-- After loading `p` from `start` on, a cell of that range holds its byte of `p` and every other cell is as before. -/
theorem State.loadFrom_read (p : List Byte) : ∀ (s : State) (start : Nat) (a : Byte), start + p.length ≤ 256 →
    (s.loadFrom start p).mem.read a =
      if start ≤ a.toNat ∧ a.toNat < start + p.length then p.getD (a.toNat - start) 0 else s.mem.read a := by
  induction p with
  | nil => intro s start a _; simp [State.loadFrom]
  | cons v p ih =>
    intro s start a h
    simp only [List.length_cons] at h ⊢
    rw [State.loadFrom, ih _ _ _ (by omega)]
    have hk : (wrap8 (start : Int)).toNat = start := by rw [wrap8_natCast_toNat]; omega
    simp only [State.load, State.store_mem, Memory.read_write, ← BitVec.toNat_inj, hk]
    by_cases h1 : a.toNat = start
    · simp [h1]
    · by_cases h2 : start + 1 ≤ a.toNat ∧ a.toNat < start + 1 + p.length
      · obtain ⟨j, hj⟩ : ∃ j, a.toNat = start + 1 + j := ⟨a.toNat - (start + 1), by omega⟩
        have e1 : a.toNat - (start + 1) = j := by omega
        have e2 : a.toNat - start = j + 1 := by omega
        rw [if_pos h2, if_pos (by omega), e1, e2]
        simp
      · rw [if_neg h2, if_neg h1, if_neg (by omega)]

/-- Loading changes nothing but memory. -/
theorem State.loadFrom_rest (p : List Byte) :
    ∀ (s : State) (start : Nat), s.loadFrom start p = { s with mem := (s.loadFrom start p).mem } := by
  induction p with
  | nil => exact fun _ _ => rfl
  | cons v p ih =>
    intro s start
    rw [State.loadFrom, ih]
    rfl

end Sys2Proof.Machine
end

