-- ==== Sys2Proof/Laws/PerInstr.lean ====
section
/-! SUPPORT. Per-instruction facts about the syntax: the family EncodedForm. -/

namespace Sys2Proof.Laws.EncodedForm

/-- The encoding of an instruction is its opcode byte and the operand bytes its format names, of the table's length; its register
operands are among its operand bytes (30_encoding.md R61, R75, 40_dispatch.md R80). -/
def Statement (i : Instr) : Prop :=
  (∀ m : OpcodeMap, (encode m i).length = i.length ∧ (encode m i).head? = some (m i.mnemonic)) ∧
    ∀ r ∈ i.regOperands, r ∈ i.operands

theorem halt : Statement .halt := ⟨fun _ => ⟨rfl, rfl⟩, fun _ h => h⟩
theorem loadImmediate (a b : Byte) : Statement (.loadImmediate a b) :=
  ⟨fun _ => ⟨rfl, rfl⟩, fun _ h => List.mem_cons.mpr (.inl (List.mem_singleton.mp h))⟩
theorem printRegister (a : Byte) : Statement (.printRegister a) := ⟨fun _ => ⟨rfl, rfl⟩, fun _ h => h⟩
theorem add (a b : Byte) : Statement (.add a b) := ⟨fun _ => ⟨rfl, rfl⟩, fun _ h => h⟩
theorem multiply (a b : Byte) : Statement (.multiply a b) := ⟨fun _ => ⟨rfl, rfl⟩, fun _ h => h⟩
theorem push (a : Byte) : Statement (.push a) := ⟨fun _ => ⟨rfl, rfl⟩, fun _ h => h⟩
theorem pop (a : Byte) : Statement (.pop a) := ⟨fun _ => ⟨rfl, rfl⟩, fun _ h => h⟩
theorem call (a : Byte) : Statement (.call a) := ⟨fun _ => ⟨rfl, rfl⟩, fun _ h => h⟩
theorem ret : Statement .ret := ⟨fun _ => ⟨rfl, rfl⟩, fun _ h => h⟩
theorem compare (a b : Byte) : Statement (.compare a b) := ⟨fun _ => ⟨rfl, rfl⟩, fun _ h => h⟩
theorem jump (a : Byte) : Statement (.jump a) := ⟨fun _ => ⟨rfl, rfl⟩, fun _ h => h⟩
theorem jumpIfEqual (a : Byte) : Statement (.jumpIfEqual a) := ⟨fun _ => ⟨rfl, rfl⟩, fun _ h => h⟩
theorem jumpIfNotEqual (a : Byte) : Statement (.jumpIfNotEqual a) := ⟨fun _ => ⟨rfl, rfl⟩, fun _ h => h⟩

end Sys2Proof.Laws.EncodedForm
end

