-- ==== Sys2Proof/Laws/Step.lean ====
section
/-! SUPPORT. Everything a step can do (40_dispatch.md R80, R81). -/

namespace Sys2Proof.Machine

theorem stopReason_none {s : State} : s.stopReason = none ↔ Enabled s := by
  unfold State.stopReason Enabled
  cases hf : s.fault <;> cases hr : s.running <;> simp

theorem stopReason_faulted {s : State} {r : FaultRecord} (h : s.fault = some r) : s.stopReason = some (.faulted r) := by
  simp [State.stopReason, h]

theorem stopReason_halted {s : State} (h : Halted s) : s.stopReason = some .halted := by
  simp [State.stopReason, h.1, h.2]

/-- A machine is enabled, halted or faulted, and only one of the three. -/
theorem enabled_halted_or_faulted (s : State) : Enabled s ∨ Halted s ∨ ∃ r, s.fault = some r := by
  unfold Enabled Halted
  cases hf : s.fault <;> cases hr : s.running <;> simp

theorem stepWith_of_decode {m : OpcodeMap} {s : State} {i : Instr} (he : Enabled s) (hd : decode m s.fetch = .ok i) :
    stepWith m s = exec i s := by
  simp [stepWith, stopReason_none.mpr he, hd]

theorem stepWith_of_illegal {m : OpcodeMap} {s : State} (he : Enabled s) (hd : ∀ k, m k ≠ s.ir) :
    stepWith m s = .next (s.raise .invalidOpcode s.ir) := by
  have h : decode m s.fetch = .error (.invalidOpcode s.ir) := decode_of_illegal (w := s.fetch) hd
  simp [stepWith, stopReason_none.mpr he, h, State.raiseDecodeError]

theorem stepWith_stopped {m : OpcodeMap} {s : State} {r : Fault} (h : s.stopReason = some r) : stepWith m s = .fault r := by
  simp [stepWith, h]

/-- The inversion of a step: it was enabled, and it ran the decoded instruction or raised InvalidOpcode. -/
theorem stepWith_next {m : OpcodeMap} {s t : State} (h : stepWith m s = .next t) :
    Enabled s ∧ ((∃ i, decode m s.fetch = .ok i ∧ exec i s = .next t ∧ Effect s i t) ∨
      ((∀ k, m k ≠ s.ir) ∧ decode m s.fetch = .error (.invalidOpcode s.ir) ∧ t = s.raise .invalidOpcode s.ir)) := by
  cases hs : s.stopReason with
  | some r => simp [stepWith, hs] at h
  | none =>
    have he := stopReason_none.mp hs
    refine ⟨he, ?_⟩
    rcases decode_cases m s.fetch with ⟨k, -, -, hd⟩ | ⟨hk, hd⟩
    · rw [stepWith_of_decode he hd] at h
      exact .inl ⟨_, hd, h, effect_of_exec h⟩
    · rw [stepWith_of_illegal he hk] at h
      cases h
      exact .inr ⟨hk, hd, rfl⟩

/-- An enabled machine always takes its step. -/
theorem stepWith_enabled (m : OpcodeMap) {s : State} (he : Enabled s) : ∃ t, stepWith m s = .next t := by
  rcases decode_cases m s.fetch with ⟨k, -, -, hd⟩ | ⟨hk, -⟩
  · obtain ⟨t, ht, -⟩ := exec_effect (k.instr s.fetch.a s.fetch.b) s
    exact ⟨t, (stepWith_of_decode he hd).trans ht⟩
  · exact ⟨_, stepWith_of_illegal he hk⟩

/-- Only the register check faults: an instruction that leaves a record where there was none raised InvalidRegister. -/
theorem fault_of_effect {i : Instr} {s t : State} {r : FaultRecord} (h : Effect s i t) (hs : s.fault = none)
    (ht : t.fault = some r) : ∃ bad, t = s.raiseInvalidRegister bad ∧ 8 ≤ bad.toNat ∧ bad ∈ i.regOperands := by
  cases h
  case jumpIfEqual => split at ht <;> simp [hs] at ht
  case jumpIfNotEqual => split at ht <;> simp [hs] at ht
  case invalidRegister bad hb hm => exact ⟨bad, rfl, hb, hm⟩
  all_goals simp [hs] at ht

/-- An instruction leaves memory alone or writes one byte of it (20_memory.md R42). -/
theorem mem_of_effect {i : Instr} {s t : State} (h : Effect s i t) : t.mem = s.mem ∨ ∃ a v, t.mem = s.mem.write a v := by
  cases h
  case push => exact .inr ⟨_, _, rfl⟩
  case call => exact .inr ⟨_, _, rfl⟩
  case jumpIfEqual => left; split <;> rfl
  case jumpIfNotEqual => left; split <;> rfl
  all_goals exact .inl rfl

/-! The frame of a register write and of a push. -/

theorem keepsRegsBut_setReg (s : State) (r : Reg) (v : Byte) : KeepsRegsBut [r] s (s.setReg r v) := fun _ hq =>
  State.reg_setReg_other s v (by simpa using hq)

theorem keepsRegsBut_pushByte (s : State) (v : Byte) : KeepsRegsBut [sp] s (s.pushByte v) := fun q hq => by
  rw [State.pushByte_reg, if_neg (by simpa using hq)]

theorem keepsMemBut_pushByte (s : State) (v : Byte) : KeepsMemBut [s.pushAddress] s (s.pushByte v) := fun _ ha =>
  Memory.read_write_other _ _ (by simpa using ha)

/-! A change of the state that commutes with the handler and with raising InvalidRegister commutes with the instruction. -/

theorem withReg_mapNext (f : State → State) (a : Byte) (s : State) {F G : Reg → State} (h : ∀ r, F r = f (G r))
    (hbad : (f s).raiseInvalidRegister a = f (s.raiseInvalidRegister a)) :
    withReg a (f s) F = mapNext f (withReg a s G) := by
  rcases register_or_bad a with ⟨r, rfl⟩ | hb
  · simp [mapNext, h]
  · simp [withReg_bad hb, mapNext, hbad]

theorem withRegs_mapNext (f : State → State) (a b : Byte) (s : State) {F G : Reg → Reg → State}
    (h : ∀ r q, F r q = f (G r q)) (hbad : ∀ c, (f s).raiseInvalidRegister c = f (s.raiseInvalidRegister c)) :
    withRegs a b (f s) F = mapNext f (withRegs a b s G) := by
  rcases register_or_bad a with ⟨r, rfl⟩ | hb
  · rcases register_or_bad b with ⟨q, rfl⟩ | hb
    · simp [mapNext, h]
    · simp [withRegs_bad_b r hb, mapNext, hbad]
  · simp [withRegs_bad_a hb, mapNext, hbad]

end Sys2Proof.Machine
end

