-- ==== Sys2Proof/Laws/Runs.lean ====
section
/-! SUPPORT. The executor under fuel: it stops where the run ends, more fuel changes no end, and it runs out of fuel exactly
while steps are enabled (40_dispatch.md R88, 70_reset_and_hazards.md R189). -/

namespace Sys2Proof.Machine

theorem endKind_none {s : State} : s.endKind = none ↔ Enabled s := by
  rw [← stopReason_none]
  unfold State.endKind
  cases s.stopReason with
  | none => simp
  | some r => cases r <;> simp

theorem endKind_some {s : State} {k : EndKind} (h : s.endKind = some k) :
    (k = .halted ∧ Halted s) ∨ (k = .faulted ∧ Faulted s) := by
  rcases enabled_halted_or_faulted s with he | he | ⟨r, he⟩
  · rw [endKind_none.mpr he] at h
    cases h
  · simp only [State.endKind, stopReason_halted he, Option.some.injEq] at h
    exact .inl ⟨h.symm, he⟩
  · simp only [State.endKind, stopReason_faulted he, Option.some.injEq] at h
    exact .inr ⟨h.symm, by simp [Faulted, he]⟩

theorem observeWith_stopped {m : OpcodeMap} {s : State} {k : EndKind} (h : s.endKind = some k) (n : Nat) :
    observeWith m n s = some ⟨k, s⟩ := by
  cases n <;> simp [observeWith, h]

theorem observeWith_zero_enabled {m : OpcodeMap} {s : State} (h : Enabled s) : observeWith m 0 s = none := by
  simp [observeWith, endKind_none.mpr h]

/-- An enabled machine's observation with one more unit of fuel is that of its next state. -/
theorem observeWith_succ {m : OpcodeMap} {s t : State} (he : Enabled s) (h : stepWith m s = .next t) (n : Nat) :
    observeWith m (n + 1) s = observeWith m n t := by
  simp [observeWith, endKind_none.mpr he, h]

theorem afterSteps_succ {m : OpcodeMap} {s t : State} (h : stepWith m s = .next t) (n : Nat) :
    afterSteps m (n + 1) s = afterSteps m n t := by
  simp [afterSteps, h]

theorem afterSteps_stopped {m : OpcodeMap} {s : State} {r : Fault} (h : s.stopReason = some r) (n : Nat) :
    afterSteps m (n + 1) s = none := by
  simp [afterSteps, stepWith_stopped (m := m) h]

/-- A machine is enabled and steps, or is stopped with an end kind. -/
theorem steps_or_ends (m : OpcodeMap) (s : State) :
    (Enabled s ∧ ∃ t, stepWith m s = .next t) ∨ ∃ k, s.endKind = some k := by
  cases h : s.endKind with
  | none => exact .inl ⟨endKind_none.mp h, stepWith_enabled m (endKind_none.mp h)⟩
  | some k => exact .inr ⟨k, rfl⟩

/-- More fuel changes no observation. -/
theorem observeWith_mono {m : OpcodeMap} {o : Observation} (k : Nat) :
    ∀ (n : Nat) (s : State), observeWith m n s = some o → observeWith m (n + k) s = some o := by
  intro n
  induction n with
  | zero =>
    intro s h
    rcases steps_or_ends m s with ⟨he, -⟩ | ⟨e, he⟩
    · rw [observeWith_zero_enabled he] at h
      cases h
    · rw [observeWith_stopped he] at h ⊢
      exact h
  | succ n ih =>
    intro s h
    rcases steps_or_ends m s with ⟨he, t, ht⟩ | ⟨e, he⟩
    · rw [Nat.add_right_comm]
      rw [observeWith_succ he ht] at h ⊢
      exact ih t h
    · rw [observeWith_stopped he] at h ⊢
      exact h

/-- What is observed is a stopped state of the kind it says. -/
theorem observeWith_final {m : OpcodeMap} {o : Observation} :
    ∀ (n : Nat) (s : State), observeWith m n s = some o → o.final.endKind = some o.kind := by
  intro n
  induction n with
  | zero =>
    intro s h
    rcases steps_or_ends m s with ⟨he, -⟩ | ⟨e, he⟩
    · rw [observeWith_zero_enabled he] at h
      cases h
    · rw [observeWith_stopped he] at h
      cases h
      exact he
  | succ n ih =>
    intro s h
    rcases steps_or_ends m s with ⟨he, t, ht⟩ | ⟨e, he⟩
    · rw [observeWith_succ he ht] at h
      exact ih t h
    · rw [observeWith_stopped he] at h
      cases h
      exact he

/-- The fuel runs out exactly when that many steps lead to an enabled state. -/
theorem observeWith_none {m : OpcodeMap} :
    ∀ (n : Nat) (s : State), observeWith m n s = none ↔ ∃ t, afterSteps m n s = some t ∧ Enabled t := by
  intro n
  induction n with
  | zero =>
    intro s
    rcases steps_or_ends m s with ⟨he, -⟩ | ⟨k, hk⟩
    · simp [observeWith_zero_enabled he, afterSteps, he]
    · have : ¬ Enabled s := fun h => by rw [endKind_none.mpr h] at hk; cases hk
      simp [observeWith_stopped hk, afterSteps, this]
  | succ n ih =>
    intro s
    rcases steps_or_ends m s with ⟨he, t, ht⟩ | ⟨k, hk⟩
    · rw [observeWith_succ he ht, afterSteps_succ ht]
      exact ih t
    · cases hs : s.stopReason with
      | none => rw [endKind_none.mpr (stopReason_none.mp hs)] at hk; cases hk
      | some r => simp [observeWith_stopped hk, afterSteps_stopped hs]

end Sys2Proof.Machine
end

