-- ==== Sys2Proof/Tests/Slice0.lean ====
section
/-! SUPPORT. The model's own tests: the WellFormed smoke tests, words written out from 30_encoding.md R61 and R66, single steps from
spec/95_test_vectors.md (the vector's name is in the test's), and a witness for the hypotheses of each statement. -/

namespace Sys2Proof.Tests
open Sys2Proof Sys2Proof.Machine

/-! WellFormed: each register operand is checked (30_encoding.md R63); the immediate is not. -/

theorem test_wellFormed_refuses_loadImmediate : (Instr.loadImmediate 8 0).wellFormed = false := by decide
theorem test_wellFormed_refuses_printRegister : (Instr.printRegister 8).wellFormed = false := by decide
theorem test_wellFormed_refuses_add_a : (Instr.add 9 0).wellFormed = false := by decide
theorem test_wellFormed_refuses_add_b : (Instr.add 0 8).wellFormed = false := by decide
theorem test_wellFormed_refuses_multiply_a : (Instr.multiply 255 0).wellFormed = false := by decide
theorem test_wellFormed_refuses_multiply_b : (Instr.multiply 0 255).wellFormed = false := by decide
theorem test_wellFormed_refuses_compare_a : (Instr.compare 8 1).wellFormed = false := by decide
theorem test_wellFormed_refuses_compare_b : (Instr.compare 1 8).wellFormed = false := by decide
theorem test_wellFormed_refuses_push : (Instr.push 8).wellFormed = false := by decide
theorem test_wellFormed_refuses_pop : (Instr.pop 8).wellFormed = false := by decide
theorem test_wellFormed_refuses_call : (Instr.call 128).wellFormed = false := by decide
theorem test_wellFormed_refuses_jump : (Instr.jump 8).wellFormed = false := by decide
theorem test_wellFormed_refuses_jumpIfEqual : (Instr.jumpIfEqual 9).wellFormed = false := by decide
theorem test_wellFormed_refuses_jumpIfNotEqual : (Instr.jumpIfNotEqual 8).wellFormed = false := by decide
theorem test_wellFormed_ignores_the_immediate : (Instr.loadImmediate 7 200).wellFormed = true := by decide

/-! Decoding: one word per constructor, written out from 30_encoding.md R61 and R66, in the table's numbering (byte 0 lowest). -/

theorem test_decode_halt : decodeTableWord 8 0b00000001 = some .halt := by decide
theorem test_decode_loadImmediate : decodeTableWord 24 0b00001000_00000011_10000010 = some (.loadImmediate 3 8) := by decide
theorem test_decode_printRegister : decodeTableWord 16 0b00000101_01000111 = some (.printRegister 5) := by decide
theorem test_decode_add : decodeTableWord 24 0b00000001_00000110_10100000 = some (.add 6 1) := by decide
theorem test_decode_multiply : decodeTableWord 24 0b00000011_00000010_10100010 = some (.multiply 2 3) := by decide
theorem test_decode_push : decodeTableWord 16 0b00000111_01000101 = some (.push 7) := by decide
theorem test_decode_pop : decodeTableWord 16 0b00000100_01000110 = some (.pop 4) := by decide
theorem test_decode_call : decodeTableWord 16 0b00000010_01010000 = some (.call 2) := by decide
theorem test_decode_ret : decodeTableWord 8 0b00010001 = some .ret := by decide
theorem test_decode_compare : decodeTableWord 24 0b00000010_00000001_10100111 = some (.compare 1 2) := by decide
theorem test_decode_jump : decodeTableWord 16 0b00000001_01010100 = some (.jump 1) := by decide
theorem test_decode_jumpIfEqual : decodeTableWord 16 0b00000011_01010101 = some (.jumpIfEqual 3) := by decide
theorem test_decode_jumpIfNotEqual : decodeTableWord 16 0b00000110_01010110 = some (.jumpIfNotEqual 6) := by decide
theorem test_decode_shorter_word_has_zero_operands : decodeTableWord 8 0b10100000 = some (.add 0 0) := by decide
theorem test_decode_rejects_0xA8 : decodeTableWord 24 0b00000001_00000000_10101000 = none := by decide

/-- 30_encoding.md R75: the encodings it writes out. -/
theorem test_encode_R75 : encode defaultOpcodeMap (.loadImmediate 0 8) = [0x82, 0x00, 0x08] ∧
    encode defaultOpcodeMap (.add 0 1) = [0xA0, 0x00, 0x01] ∧ encode defaultOpcodeMap (.printRegister 0) = [0x47, 0x00] ∧
    encode defaultOpcodeMap .halt = [0x01] := by decide

/-- 30_encoding.md R73: the written form. -/
theorem test_text : (Instr.loadImmediate 0 8).text = "LOAD_IMMEDIATE(0, 8)" ∧ Instr.halt.text = "HALT" := by decide

/-! Single steps of spec/95_test_vectors.md. -/

/-- The next state, if the step answers one. -/
def nextOf : Host.Outcome State Fault Refusal → Option State
  | .next t => some t
  | .fault _ => none
  | .refused _ => none

/-- A reset machine whose pc is `p`, with three bytes stored there. -/
def before (p ir a b : Byte) : State := ({ State.reset with pc := p } : State).placeAtPc ⟨ir, a, b⟩

theorem test_A1_add_wraps :
    (nextOf (step (((before 0 0xA0 0 1).setReg 0 255).setReg 1 1))).map (fun t => (t.reg 0, t.pc, t.fl)) =
      some (0, 3, .equal) := by decide
theorem test_A4_add_into_sp :
    (nextOf (step (((before 0 0xA0 7 0).setReg 7 250).setReg 0 10))).map (fun t => (t.reg 7, t.reg 0)) = some (4, 10) := by decide
theorem test_A6_multiply_keeps_the_low_byte :
    (nextOf (step (((before 0 0xA2 0 1).setReg 0 255).setReg 1 255))).map (fun t => (t.reg 0, t.pc)) = some (1, 3) := by decide
theorem test_A7_multiply :
    (nextOf (step (((before 0 0xA2 0 1).setReg 0 20).setReg 1 13))).map (fun t => (t.reg 0, t.reg 1)) = some (4, 13) := by decide
theorem test_A9_compare_less :
    (nextOf (step ((((before 0 0xA7 0 1).setReg 0 0).setReg 1 255).setFlag .greater))).map (fun t => (t.fl, t.pc)) =
      some (.less, 3) := by decide
theorem test_A10_compare_is_unsigned :
    (nextOf (step (((before 0 0xA7 0 1).setReg 0 128).setReg 1 127))).map (fun t => t.fl) = some .greater := by decide
theorem test_DP1_operand_fetch_wraps :
    (nextOf (step (before 254 0x82 0 0xC8))).map (fun t => (t.reg 0, t.pc, t.mem.read 0)) = some (200, 1, 0xC8) := by decide
theorem test_DP9_load_sp : (nextOf (step (before 0 0x82 7 0xF4))).map (fun t => (t.reg 7, t.pc)) = some (0xF4, 3) := by decide
theorem test_DP4_print :
    (nextOf (step ((before 254 0x47 3 0).setReg 3 99))).map (fun t => (t.out, t.pc)) = some ([99], 0) := by decide
theorem test_DP8_unused_byte_is_not_checked :
    (nextOf (step ((before 0 0x47 0 0xFF).setReg 0 5))).map (fun t => (t.out, t.fault)) = some ([5], none) := by decide
theorem test_DP6_halt :
    (nextOf (step (before 11 0x01 0xFF 0xFF))).map (fun t => (t.running, t.pc, t.fault)) = some (false, 11, none) := by decide
theorem test_K1_push_wraps :
    (nextOf (step ((before 0 0x45 0 0).setReg 0 42))).map (fun t => (t.reg 7, t.mem.read 255, t.pc)) = some (255, 42, 2) := by decide
theorem test_K2_pop_wraps :
    (nextOf (step (((before 0 0x46 1 0).setReg 7 255).store 255 77))).map (fun t => (t.reg 1, t.reg 7, t.mem.read 255)) =
      some (77, 0, 77) := by decide
theorem test_K5_push_sp_old :
    (nextOf (execPushWith .old 7 (State.reset.setReg 7 0x20))).map (fun t => (t.reg 7, t.mem.read 0x1F)) = some (0x1F, 0x20) := by
  decide
theorem test_K6_push_sp_new :
    (nextOf (execPushWith .new 7 (State.reset.setReg 7 0x20))).map (fun t => (t.reg 7, t.mem.read 0x1F)) = some (0x1F, 0x1F) := by
  decide
theorem test_K7_pop_sp_value :
    (nextOf (execPopWith .value 7 ((State.reset.setReg 7 0x30).store 0x30 0x80))).map (fun t => t.reg 7) = some 0x80 := by decide
theorem test_K8_pop_sp_value_plus_one :
    (nextOf (execPopWith .valuePlusOne 7 ((State.reset.setReg 7 0x30).store 0x30 0x80))).map (fun t => t.reg 7) = some 0x81 := by
  decide
theorem test_K9_call_return_address_wraps :
    (nextOf (step (((before 254 0x50 1 0).setReg 1 0x40).setReg 7 0x20))).map (fun t => (t.reg 7, t.mem.read 0x1F, t.pc)) =
      some (0x1F, 0, 0x40) := by decide
theorem test_K10_call_sp :
    (nextOf (step ((before 0x10 0x50 7 0).setReg 7 0x20))).map (fun t => (t.reg 7, t.mem.read 0x1F, t.pc)) =
      some (0x1F, 0x12, 0x1F) := by decide
theorem test_K13_return :
    (nextOf (step (((before 9 0x11 0 0).setReg 7 255).store 255 6))).map (fun t => (t.pc, t.reg 7)) = some (6, 0) := by decide
theorem test_K15_return_ignores_operand_bytes :
    (nextOf (step (((before 0 0x11 0xFF 0xFF).setReg 7 0x10).store 0x10 0x33))).map (fun t => (t.pc, t.reg 7)) =
      some (0x33, 0x11) := by decide
theorem test_B1_jump : (nextOf (step ((before 7 0x54 2 0).setReg 2 40))).map (fun t => t.pc) = some 40 := by decide
theorem test_B2_jumpIfEqual_taken :
    (nextOf (step ((before 0 0x55 3 0).setReg 3 30))).map (fun t => t.pc) = some 30 := by decide
theorem test_B3_jumpIfEqual_not_taken :
    (nextOf (step (((before 0 0x55 3 0).setReg 3 30).setFlag .less))).map (fun t => t.pc) = some 2 := by decide
theorem test_B7_jumpIfNotEqual_taken :
    (nextOf (step (((before 0 0x56 3 0).setReg 3 30).setFlag .greater))).map (fun t => t.pc) = some 30 := by decide
theorem test_B9_jumpIfNotEqual_not_taken_wraps :
    (nextOf (step ((before 254 0x56 3 0).setReg 3 30))).map (fun t => t.pc) = some 0 := by decide
theorem test_F2_opcode_before_operands :
    (nextOf (step (before 0 0xFF 9 9))).map (fun t => (t.fault, t.running, t.pc)) =
      some (some ⟨.invalidOpcode, 0, 0xFF⟩, true, 0) := by decide
theorem test_F4_operand_a_before_b :
    (nextOf (step (before 0 0xA0 9 10))).map (fun t => t.fault) = some (some ⟨.invalidRegister, 0, 9⟩) := by decide
theorem test_F5_operand_b :
    (nextOf (step (before 0 0xA0 1 10))).map (fun t => t.fault) = some (some ⟨.invalidRegister, 0, 10⟩) := by decide
theorem test_F7_checked_when_not_taken :
    (nextOf (step ((before 0 0x55 9 0).setFlag .less))).map (fun t => t.fault) = some (some ⟨.invalidRegister, 0, 9⟩) := by decide
theorem test_F8_no_step_after_a_fault :
    ((nextOf (step State.reset)).map fun t => (nextOf (step t)).isNone) = some true := by decide
theorem test_F9_no_step_after_halt :
    ((nextOf (step (before 11 0x01 0xFF 0xFF))).map fun t => (nextOf (step t)).isNone) = some true := by decide

/-! Witnesses: concrete states and operands that meet the hypotheses of each statement. -/

/-- For every statement that assumes an opcode map meeting R67. -/
theorem witness_validOpcodeMap : defaultOpcodeMap.Valid :=
  ⟨by intro j k; cases j <;> cases k <;> decide, by intro k; cases k <;> decide⟩

/-- DecodedBytesAreTheEncoding. -/
theorem witness_decodedBytes : decode defaultOpcodeMap ⟨0x47, 5, 0xFF⟩ = .ok (.printRegister 5) := rfl

/-- DecodingIsAnExactMatchOfTheOpcodeByte: a matched byte and an unmatched one. -/
theorem witness_exactMatch : defaultOpcodeMap .ret = (⟨0x11, 1, 2⟩ : Fetched).ir ∧
    ∀ k, defaultOpcodeMap k ≠ (⟨0xA8, 1, 2⟩ : Fetched).ir :=
  ⟨rfl, by intro k; cases k <;> decide⟩

/-- InstructionsAreOneTwoOrThreeBytes: two different instructions with the same opcode byte. -/
theorem witness_sameOpcode : (encode defaultOpcodeMap (.add 0 1)).head? = (encode defaultOpcodeMap (.add 2 3)).head? := rfl

/-- RegisterOperandIsTheWholeByte: the boundary bytes 7 and 8. -/
theorem witness_registerOperand : (8 : Byte).toNat ≥ 8 ∧ (7 : Byte) = (7 : Reg).byte ∧ regOperand 7 = some 7 := by decide

/-- StepRunsTheDecodedInstruction, WellFormedInstructionsRaiseNothing: an enabled machine on a well-formed instruction. -/
theorem witness_enabledDecoded : Enabled (before 253 0x82 7 255) ∧
    decode defaultOpcodeMap (before 253 0x82 7 255).fetch = .ok (.loadImmediate 7 255) ∧
    (Instr.loadImmediate 7 255).wellFormed = true := ⟨⟨rfl, rfl⟩, rfl, rfl⟩

/-- StepsAreTakenExactlyWhenEnabled, StoppedMachineSaysWhy: a halted machine and a faulted one. -/
theorem witness_stopped : Halted State.reset.stopRunning ∧ Stopped State.reset.stopRunning ∧
    Stopped (State.reset.raise .invalidOpcode 0) ∧
    (State.reset.raise .invalidOpcode 0).fault = some ⟨.invalidOpcode, 0, 0⟩ :=
  ⟨⟨rfl, rfl⟩, .inl ⟨rfl, rfl⟩, .inr (fun h => by cases h), rfl⟩

/-- InvalidOpcodeLatchesTheByteAndNothingElse: reset memory holds no opcode. -/
theorem witness_invalidOpcode : Enabled State.reset ∧ ∀ k, defaultOpcodeMap k ≠ State.reset.mem.read State.reset.pc :=
  ⟨⟨rfl, rfl⟩, by intro k; cases k <;> decide⟩

/-- InvalidRegisterNamesTheFirstBadOperand: operand A at the boundary, and operand B. -/
theorem witness_invalidRegister :
    (Instr.add 8 9).regOperands.find? (fun r => decide (8 ≤ r.toNat)) = some 8 ∧
    (Instr.compare 7 255).regOperands.find? (fun r => decide (8 ≤ r.toNat)) = some 255 := by decide

/-- AluRefusesATagOutsideItsSet. -/
theorem witness_aluTag : Mnemonic.push ≠ .add ∧ Mnemonic.push ≠ .multiply ∧ Mnemonic.push ≠ .compare := by decide

/-- UnsupportedAluOperationIsUnreachable, FaultingStepWritesOnlyTheLatch: a step that faults, by opcode and by register. -/
theorem witness_faultingStep :
    stepWith defaultOpcodeMap State.reset = .next (State.reset.raise .invalidOpcode 0) ∧
    (State.reset.raise .invalidOpcode 0).fault = some ⟨.invalidOpcode, 0, 0⟩ ∧
    (nextOf (stepWith defaultOpcodeMap (before 0 0x47 8 0))).bind State.fault = some ⟨.invalidRegister, 0, 8⟩ :=
  ⟨rfl, rfl, rfl⟩

/-- OnlyHaltChangesTheRunningFlag and the other statements about a step: a HALT step. -/
theorem witness_haltStep : stepWith defaultOpcodeMap (before 0 0x01 0 0) = .next (before 0 0x01 0 0).stopRunning ∧
    (before 0 0x01 0 0).stopRunning.running = false := ⟨rfl, rfl⟩

/-- OnlyCompareChangesTheFlag: a step that changes FL. -/
theorem witness_flagStep : ∃ t, stepWith defaultOpcodeMap ((before 0 0xA7 0 1).setReg 1 9) = .next t ∧
    t.fl ≠ ((before 0 0xA7 0 1).setReg 1 9).fl := ⟨_, rfl, by decide⟩

/-- OutputGrowsOnlyByPrintRegister: a step that outputs. -/
theorem witness_printStep : ∃ t, stepWith defaultOpcodeMap (before 0 0x47 7 0) = .next t ∧ t.out = [0] := ⟨_, rfl, rfl⟩

/-- OnlyPushAndCallWriteMemory, OnlyListedRegistersAreWritten: a CALL and a PUSH that write address 255 (SP = 0) and change SP. -/
theorem witness_storingSteps :
    (∃ t, stepWith defaultOpcodeMap (before 3 0x50 1 0) = .next t ∧ t.mem.read 255 ≠ (before 3 0x50 1 0).mem.read 255 ∧
      t.reg sp ≠ (before 3 0x50 1 0).reg sp) ∧
    (∃ t, stepWith defaultOpcodeMap ((before 3 0x45 1 0).setReg 1 5) = .next t ∧
      t.mem.read 255 ≠ ((before 3 0x45 1 0).setReg 1 5).mem.read 255) :=
  ⟨⟨_, rfl, by decide, by decide⟩, ⟨_, rfl, by decide⟩⟩

/-- UnlistedRegistersAreNotRead: a written register, and one neither read nor written. -/
theorem witness_unlistedRegister :
    (3 : Reg).byte ∉ readsRegisters (.pop 3) ∧ (Instr.pop 3).wellFormed = true ∧ (3 : Reg).byte ∈ writesRegisters (.pop 3) ∧
    (0 : Reg).byte ∉ readsRegisters (.push 6) := by decide

/-- FlagIsReadOnlyAsTheEqualBit: its three kinds of instruction, LESS against GREATER for a jump. -/
theorem witness_flagReaders : (Instr.mnemonic (.add 0 1) ≠ .compare ∧ Instr.mnemonic (.add 0 1) ≠ .jumpIfEqual ∧
      Instr.mnemonic (.add 0 1) ≠ .jumpIfNotEqual) ∧
    (Instr.mnemonic (.jumpIfEqual 3) = .jumpIfEqual ∧
      ((Flag.less = .equal) ↔ ((State.reset.setFlag .greater).fl = .equal))) ∧
    (Instr.mnemonic (.compare 0 7) = .compare ∧ (Instr.compare 0 7).wellFormed = true) := by decide

/-- DataIsReadOnlyAtTheStackTop: memories that differ but agree at SP. -/
theorem witness_sameTop : Instr.mnemonic (.pop 0) ≠ .push ∧ Instr.mnemonic (.pop 0) ≠ .call ∧
    Memory.read [(9, 1)] (State.reset.reg sp) = State.reset.mem.read (State.reset.reg sp) := by decide

/-- ControlTransfersAreTheListedOnes: the hypotheses of each clause together; an advance, each conditional jump not taken and taken
(LESS and GREATER as the flags that are not EQUAL), RETURN, JUMP, and CALL of a register and of SP. -/
theorem witness_controlTransfers :
    ((Instr.push 7).wellFormed = true ∧
      Instr.mnemonic (.push 7) ∉ [Mnemonic.call, .ret, .jump, .jumpIfEqual, .jumpIfNotEqual, .halt]) ∧
    ((Instr.jumpIfEqual 3).wellFormed = true ∧ Instr.mnemonic (.jumpIfEqual 3) = .jumpIfEqual ∧
      (State.reset.setFlag .less).fl ≠ .equal) ∧
    ((Instr.jumpIfEqual 3) = .jumpIfEqual (3 : Reg).byte ∧ State.reset.fl = .equal) ∧
    ((Instr.jumpIfNotEqual 0).wellFormed = true ∧ Instr.mnemonic (.jumpIfNotEqual 0) = .jumpIfNotEqual ∧
      State.reset.fl = .equal) ∧
    ((Instr.jumpIfNotEqual 0) = .jumpIfNotEqual (0 : Reg).byte ∧ (State.reset.setFlag .greater).fl ≠ .equal) ∧
    Instr.ret.wellFormed = true ∧
    ((Instr.jump 7).wellFormed = true ∧ (Instr.jump 7) = .jump (7 : Reg).byte) ∧
    ((Instr.call 0).wellFormed = true ∧ (Instr.call 0) = .call (0 : Reg).byte) ∧
    ((Instr.call 7).wellFormed = true ∧ (Instr.call 7) = .call sp.byte) := by decide

/-- AluInstructionsLeaveTheRestAlone: states that differ in another register, memory, FL, running and out. -/
theorem witness_sameOperands :
    let s' := ((((State.reset.setReg 5 9).store 4 4).setFlag .less).emit 1).stopRunning
    s'.reg 0 = State.reset.reg 0 ∧ s'.reg 1 = State.reset.reg 1 ∧ s'.pc = State.reset.pc ∧ s' ≠ State.reset := by decide

/-- PushThenPopCarriesTheValue and the register clauses of the stack statements. -/
theorem witness_notSp : (6 : Reg) ≠ sp ∧ (0 : Reg) ≠ sp ∧ (7 : Reg) = sp := by decide

/-- StackPointerRoundTripNeedsOldAndValue: the two instructions run. -/
theorem witness_stackPointerRoundTrip : ∃ t u, execPushWith .old sp.byte State.reset = .next t ∧
    execPopWith .value sp.byte t = .next u := ⟨_, _, rfl, rfl⟩

/-- PushedByteIsFetchedByTheNextStep: a PUSH (95_test_vectors.md P7) and a CALL of register 7 whose pushed byte is fetched next. -/
theorem witness_fetchedPush :
    (∃ t, stepWith defaultOpcodeMap ((before 6 0x45 0 0).setReg 7 9) = .next t ∧
      t.pc = ((before 6 0x45 0 0).setReg 7 9).pushAddress) ∧
    decode defaultOpcodeMap ((before 6 0x45 0 0).setReg 7 9).fetch = .ok (.push (0 : Reg).byte) ∧
    (∃ t, stepWith defaultOpcodeMap ((before 0x10 0x50 7 0).setReg 7 0x20) = .next t ∧
      t.pc = ((before 0x10 0x50 7 0).setReg 7 0x20).pushAddress) ∧
    decode defaultOpcodeMap ((before 0x10 0x50 7 0).setReg 7 0x20).fetch = .ok (.call (7 : Reg).byte) :=
  ⟨⟨_, rfl, by decide⟩, rfl, ⟨_, rfl, by decide⟩, rfl⟩

/-- JumpToItselfNeverEnds (95_test_vectors.md B10). -/
theorem witness_jumpToItself : Enabled ((before 7 0x54 0 0).setReg 0 7) ∧
    decode defaultOpcodeMap ((before 7 0x54 0 0).setReg 0 7).fetch = .ok (.jump (0 : Reg).byte) ∧
    ((before 7 0x54 0 0).setReg 0 7).reg 0 = ((before 7 0x54 0 0).setReg 0 7).pc := ⟨⟨rfl, rfl⟩, rfl, by decide⟩

/-- CanonicalMemoriesThatReadAlikeAreEqual: canonical memories at both ends of the address space. -/
theorem witness_canonical : Memory.wf [(0, 1), (255, 2)] ∧ Memory.wf [] ∧ ¬ Memory.wf [(3, 0)] ∧ ¬ Memory.wf [(4, 1), (3, 1)] := by
  decide

/-- LoadedProgramStandsFromAddressZero: the longest program. -/
theorem witness_longestProgram : (List.replicate 256 (1 : Byte)).length ≤ 256 := (List.length_replicate).le

/-- LoadIsAllowedOnlyBeforeTheFirstStep: before and after the first step. -/
theorem witness_boot : (⟨false, State.reset⟩ : Block).started = false ∧
    (⟨false, State.reset⟩ : Block).command defaultOpcodeMap .step = .next ⟨true, State.reset.raise .invalidOpcode 0⟩ ∧
    (⟨true, State.reset.raise .invalidOpcode 0⟩ : Block).started = true := ⟨rfl, rfl, rfl⟩

/-- OnlyResetLeavesAStop: a faulted block that reset acts on. -/
theorem witness_onlyReset : let b : Block := ⟨true, State.reset.raise .invalidOpcode 0⟩
    (Stopped b.core → b.started = true) ∧ b.command defaultOpcodeMap .reset = .next ⟨false, State.reset⟩ ∧ Stopped b.core :=
  ⟨fun _ => rfl, rfl, .inr (fun h => by cases h)⟩

/-- RunEndsInExactlyOneWay, RunsEndOnlyByHaltOrFault: a run that halts and one that faults. -/
theorem witness_endingRuns :
    (Enabled (before 0 0x01 0 0) ∧ EndsWith defaultOpcodeMap (before 0 0x01 0 0) ⟨.halted, (before 0 0x01 0 0).stopRunning⟩) ∧
    (Enabled State.reset ∧ EndsWith defaultOpcodeMap State.reset ⟨.faulted, State.reset.raise .invalidOpcode 0⟩) :=
  ⟨⟨⟨rfl, rfl⟩, 1, rfl⟩, ⟨⟨rfl, rfl⟩, 1, rfl⟩⟩

/-- RunEndsInExactlyOneWay: a run that never ends. -/
theorem witness_endlessRun : NeverEnds defaultOpcodeMap (before 0 0x54 0 0) := by
  intro fuel
  induction fuel with
  | zero => rfl
  | succ n ih => exact ih

/-- EveryStepKeepsTheInvariant: a state that meets the invariant and takes a step. -/
theorem witness_invariant : State.reset.Inv defaultOpcodeMap ∧
    stepWith defaultOpcodeMap State.reset = .next (State.reset.raise .invalidOpcode 0) :=
  ⟨⟨by decide, fun _ h => by cases h⟩, rfl⟩

/-! The host's questions on a table row: the word's instruction runs as the first one after reset. -/

theorem test_withFetchWord_runs_push :
    (nextOf (step (State.reset.withFetchWord 16 0x0045))).map (fun t => (t.reg 7, t.pc, t.fault)) = some (255, 2, none) := by decide

end Sys2Proof.Tests
end

section
/-! PROOFS. Memory at reset and the first fetch (20_memory.md R56, 70_reset_and_hazards.md R181). -/

namespace Sys2Proof.Machine

/-- 20_memory.md R56: a machine that has run nothing has written no cell. -/
@[simp] theorem State.reset_mem_read (a : Byte) : State.reset.mem.read a = 0 := rfl

/-- 10_state.md R25: this includes the stack pointer. -/
@[simp] theorem State.reset_reg (r : Reg) : State.reset.reg r = 0 := by
  simp [State.reg, State.reset]

@[simp] theorem State.reset_pc : State.reset.pc = 0 := rfl

/-- The fetch takes its opcode byte from the cell at pc (30_encoding.md R62). -/
@[simp] theorem State.fetch_ir (s : State) : s.fetch.ir = s.mem.read s.pc := rfl

/-- The load port writes memory only, so the machine still starts where it was (20_memory.md R57). -/
@[simp] theorem State.loadProgram_pc (s : State) (p : List Byte) : (s.loadProgram p).pc = s.pc := by
  rw [State.loadProgram, State.loadFrom_rest]

/-- Settles O50: reset holds zeros everywhere, and loading leaves the pc at 0, where the first fetch reads. -/
theorem resetZeroesMemoryRegistersAndPc : Obligations.ResetZeroesMemoryRegistersAndPc := by
  unfold Obligations.ResetZeroesMemoryRegistersAndPc
  refine ⟨State.reset_mem_read, State.reset_reg, State.reset_pc, fun p => ?_⟩
  rw [State.fetch_ir, State.loadProgram_pc, State.reset_pc]

end Sys2Proof.Machine
end

section
/-! PROOFS. The shape of an instruction and the exact match of its opcode byte (30_encoding.md R60, R68). -/

namespace Sys2Proof

/-- 30_encoding.md R61: the operand bytes make up the length less the opcode byte. -/
theorem Instr.operands_length_add_one (i : Instr) : i.operands.length + 1 = i.length := by
  cases i <;> rfl

theorem Format.length_le_three (f : Format) : f.length ≤ 3 := by cases f <;> decide

/-- 30_encoding.md R60: an instruction takes at most two operand bytes. -/
theorem Instr.operands_length_le_two (i : Instr) : i.operands.length ≤ 2 := by
  have hlen : i.operands.length + 1 = i.mnemonic.format.length := i.operands_length_add_one
  have hmax : i.mnemonic.format.length ≤ 3 := i.mnemonic.format.length_le_three
  omega

@[simp] theorem Mnemonic.length_instr (k : Mnemonic) (a b : Byte) : (k.instr a b).length = k.format.length := by
  rw [Instr.length, mnemonic_instr]

theorem encode_length (m : OpcodeMap) (i : Instr) : (encode m i).length = i.length := i.operands_length_add_one

theorem encode_head? (m : OpcodeMap) (i : Instr) : (encode m i).head? = some (m i.mnemonic) := rfl

/-- Under a map that meets R67, bytes that begin with an entry's opcode decode to that entry. -/
theorem decode_of_opcode {m : OpcodeMap} (hm : m.Valid) {w : Fetched} {k : Mnemonic} (hk : m k = w.ir) :
    decode m w = .ok (k.instr w.a w.b) :=
  decode_of_lookup (hk ▸ OpcodeMap.lookup_of_valid hm k)

/-- Bytes that decode begin with the opcode byte of what they decode to (no constraint on the map is needed). -/
theorem opcode_of_decode {m : OpcodeMap} {w : Fetched} {i : Instr} (h : decode m w = .ok i) : m i.mnemonic = w.ir := by
  rcases decode_cases m w with ⟨k, -, hk, hd⟩ | ⟨-, hd⟩
  · obtain rfl : k.instr w.a w.b = i := Except.ok.inj (hd.symm.trans h)
    rw [Mnemonic.mnemonic_instr, hk]
  · cases hd.symm.trans h

/-- Under a map that meets R67, the opcode byte of an encoding fixes its length. -/
theorem encode_length_eq_of_head?_eq {m : OpcodeMap} (hm : m.Valid) {i j : Instr}
    (h : (encode m i).head? = (encode m j).head?) : (encode m i).length = (encode m j).length := by
  obtain ⟨hinj, -⟩ := hm
  rw [encode_head?, encode_head?] at h
  have hmn : i.mnemonic = j.mnemonic := hinj _ _ (Option.some.inj h)
  rw [encode_length, encode_length, Instr.length, Instr.length, hmn]

namespace Machine

/-- Settles O5: the lookup of an entry's byte is that entry, because the map is injective, and it finds nothing else. -/
theorem decodingIsAnExactMatchOfTheOpcodeByte : Obligations.DecodingIsAnExactMatchOfTheOpcodeByte := by
  unfold Obligations.DecodingIsAnExactMatchOfTheOpcodeByte
  refine fun m hm w => ⟨fun k hk => ⟨decode_of_opcode hm hk, k.mnemonic_instr _ _, k.length_instr _ _, ?_⟩,
    decode_of_illegal, fun i => opcode_of_decode⟩
  rw [Instr.operands_length_add_one, Mnemonic.length_instr]

/-- Settles O6: the length is the matched entry's, and the map is injective. -/
theorem instructionsAreOneTwoOrThreeBytes : Obligations.InstructionsAreOneTwoOrThreeBytes := by
  unfold Obligations.InstructionsAreOneTwoOrThreeBytes
  exact fun m => ⟨fun i => ⟨rfl, i.operands_length_le_two, encode_length m i⟩,
    fun hm _ _ => encode_length_eq_of_head?_eq hm⟩

end Machine
end Sys2Proof
end

section
/-! PROOFS. A step is taken exactly when enabled (40_dispatch.md R81), and the one instruction that halts (R84). -/

namespace Sys2Proof.Machine

theorem stopped_iff_stopReason {s : State} : Stopped s ↔ ∃ r, s.stopReason = some r := by
  constructor
  · rintro (hh | hf)
    · exact ⟨_, stopReason_halted hh⟩
    · obtain ⟨r, hr⟩ := Option.ne_none_iff_exists'.mp hf
      exact ⟨_, stopReason_faulted hr⟩
  · rintro ⟨r, hr⟩
    rcases enabled_halted_or_faulted s with he | hh | ⟨q, hq⟩
    · cases (stopReason_none.mpr he).symm.trans hr
    · exact .inl hh
    · exact .inr (Option.ne_none_iff_exists'.mpr ⟨q, hq⟩)

/-- A step answers a next state from an enabled machine and a stop from a stopped one; there is no third answer. -/
theorem stepWith_next_or_fault (m : OpcodeMap) (s : State) :
    (Enabled s ∧ ∃ t, stepWith m s = .next t) ∨ (Stopped s ∧ ∃ r, stepWith m s = .fault r) := by
  cases h : s.stopReason with
  | none => exact .inl ⟨stopReason_none.mp h, stepWith_enabled m (stopReason_none.mp h)⟩
  | some r => exact .inr ⟨stopped_iff_stopReason.mpr ⟨r, h⟩, r, stepWith_stopped h⟩

theorem enabled_iff_stepWith_next (m : OpcodeMap) (s : State) : Enabled s ↔ ∃ t, stepWith m s = .next t :=
  ⟨stepWith_enabled m, fun ⟨_, ht⟩ => (stepWith_next ht).1⟩

theorem stopped_iff_stepWith_fault (m : OpcodeMap) (s : State) : Stopped s ↔ ∃ r, stepWith m s = .fault r := by
  constructor
  · intro hs
    obtain ⟨r, hr⟩ := stopped_iff_stopReason.mp hs
    exact ⟨r, stepWith_stopped hr⟩
  · rintro ⟨r, hr⟩
    rcases stepWith_next_or_fault m s with ⟨-, t, ht⟩ | ⟨hs, -⟩
    · cases ht.symm.trans hr
    · exact hs

theorem stepWith_ne_refused (m : OpcodeMap) (s : State) (q : Refusal) : stepWith m s ≠ .refused q := by
  intro hq
  rcases stepWith_next_or_fault m s with ⟨-, t, ht⟩ | ⟨-, r, hr⟩
  · cases ht.symm.trans hq
  · cases hr.symm.trans hq

/-- Settles O11: a machine is enabled or stopped, and the stop reason decides what the step answers. -/
theorem stepsAreTakenExactlyWhenEnabled : Obligations.StepsAreTakenExactlyWhenEnabled := by
  unfold Obligations.StepsAreTakenExactlyWhenEnabled
  refine fun m s => ⟨enabled_iff_stepWith_next m s, stopped_iff_stepWith_fault m s, fun hs n => ?_, stepWith_ne_refused m s⟩
  obtain ⟨r, hr⟩ := stopped_iff_stopReason.mp hs
  exact afterSteps_stopped hr n

/-- 10_state.md R32: no instruction but HALT writes the running flag. -/
theorem halt_or_running_of_effect {i : Instr} {s t : State} (h : Effect s i t) : i = .halt ∨ t.running = s.running := by
  cases h
  case halt => exact .inl rfl
  case jumpIfEqual => right; split <;> rfl
  case jumpIfNotEqual => right; split <;> rfl
  all_goals exact .inr rfl

/-- A step that leaves the machine halted decoded HALT: it was enabled, so it cleared the running flag. -/
theorem decode_halt_of_stepWith_halted {m : OpcodeMap} {s t : State} (h : stepWith m s = .next t) (ht : Halted t) :
    decode m s.fetch = .ok .halt := by
  obtain ⟨⟨hrun, -⟩, ⟨i, hd, -, heff⟩ | ⟨-, -, rfl⟩⟩ := stepWith_next h
  · rcases halt_or_running_of_effect heff with rfl | hkeep
    · exact hd
    · simp [hkeep, hrun, Halted] at ht
  · simp [Halted] at ht

end Sys2Proof.Machine
end

section
/-! PROOFS. The three ends of a run (40_dispatch.md R88): the executor under fuel and the exact number of steps agree. -/

namespace Sys2Proof.Machine

/-- The last of `n + 1` steps is a step from the state after `n`. -/
theorem afterSteps_succ_eq_some {m : OpcodeMap} {t : State} (n : Nat) :
    ∀ s : State, afterSteps m (n + 1) s = some t ↔ ∃ u, afterSteps m n s = some u ∧ stepWith m u = .next t := by
  induction n with
  | zero =>
    intro s
    rcases stepWith_next_or_fault m s with ⟨-, u, hu⟩ | ⟨-, r, hr⟩
    · simp [afterSteps, hu]
    · simp [afterSteps, hr]
  | succ n ih =>
    intro s
    rcases stepWith_next_or_fault m s with ⟨-, u, hu⟩ | ⟨-, r, hr⟩
    · rw [afterSteps_succ hu, afterSteps_succ hu]
      exact ih u
    · simp [afterSteps, hr]

/-- A run from an enabled state that ends has a last step, which leads to its final state. -/
theorem lastStep_of_observeWith {m : OpcodeMap} {o : Observation} :
    ∀ (fuel : Nat) (s : State), Enabled s → observeWith m fuel s = some o →
      ∃ n u, afterSteps m n s = some u ∧ stepWith m u = .next o.final := by
  intro fuel
  induction fuel with
  | zero =>
    intro s he h
    cases (observeWith_zero_enabled he).symm.trans h
  | succ fuel ih =>
    intro s he h
    obtain ⟨t, ht⟩ := stepWith_enabled m he
    rw [observeWith_succ he ht] at h
    rcases steps_or_ends m t with ⟨het, -⟩ | ⟨k, hk⟩
    · obtain ⟨n, u, hn, hu⟩ := ih t het h
      exact ⟨n + 1, u, (afterSteps_succ ht n).trans hn, hu⟩
    · obtain rfl : ⟨k, t⟩ = o := Option.some.inj ((observeWith_stopped hk fuel).symm.trans h)
      exact ⟨0, s, rfl, ht⟩

theorem not_neverEnds_iff {m : OpcodeMap} {s : State} : ¬ NeverEnds m s ↔ ∃ o, EndsWith m s o := by
  simp only [NeverEnds, EndsWith, not_forall, ← ne_eq, Option.ne_none_iff_exists']
  exact exists_comm

/-- Two ends of a run are one: with the sum of the two amounts of fuel both are observed. -/
theorem endsWith_unique {m : OpcodeMap} {s : State} {o o' : Observation} (h : EndsWith m s o) (h' : EndsWith m s o') :
    o = o' := by
  obtain ⟨n, hn⟩ := h
  obtain ⟨n', hn'⟩ := h'
  have hsum : observeWith m (n + n') s = some o := observeWith_mono n' n s hn
  have hsum' : observeWith m (n + n') s = some o' := Nat.add_comm n' n ▸ observeWith_mono n n' s hn'
  exact Option.some.inj (hsum.symm.trans hsum')

theorem endsWith_kind {m : OpcodeMap} {s : State} {o : Observation} (h : EndsWith m s o) :
    (o.kind = .halted ∧ Halted o.final) ∨ (o.kind = .faulted ∧ Faulted o.final) := by
  obtain ⟨n, hn⟩ := h
  exact endKind_some (observeWith_final n s hn)

/-- A run that never ends is one in which any number of steps is taken: a further step says that the state before it was enabled. -/
theorem neverEnds_iff_afterSteps {m : OpcodeMap} {s : State} : NeverEnds m s ↔ ∀ n, ∃ t, afterSteps m n s = some t := by
  constructor
  · intro h n
    obtain ⟨t, ht, -⟩ := (observeWith_none n s).mp (h n)
    exact ⟨t, ht⟩
  · intro h n
    obtain ⟨t, ht⟩ := h (n + 1)
    obtain ⟨u, hu, hstep⟩ := (afterSteps_succ_eq_some n s).mp ht
    exact (observeWith_none n s).mpr ⟨u, hu, (stepWith_next hstep).1⟩

/-- From an enabled state a halted end is reached by a HALT step. -/
theorem haltStep_of_endsWith_halted {m : OpcodeMap} {s t : State} (he : Enabled s) (h : EndsWith m s ⟨.halted, t⟩) :
    ∃ n u, afterSteps m n s = some u ∧ decode m u.fetch = .ok .halt ∧ stepWith m u = .next t := by
  rcases endsWith_kind h with ⟨-, hhalted⟩ | ⟨hkind, -⟩
  · obtain ⟨fuel, hfuel⟩ := h
    obtain ⟨n, u, hn, hu⟩ := lastStep_of_observeWith fuel s he hfuel
    exact ⟨n, u, hn, decode_halt_of_stepWith_halted hu hhalted, hu⟩
  · cases hkind

/-- Settles O54: more fuel changes no end, the fuel never suffices exactly when every step is followed by another, and the last step
of a halted run cleared the running flag. -/
theorem runEndsInExactlyOneWay : Obligations.RunEndsInExactlyOneWay := by
  unfold Obligations.RunEndsInExactlyOneWay
  intro m s
  refine ⟨?_, fun hnever o ho => not_neverEnds_iff.mpr ⟨o, ho⟩ hnever, fun _ _ => endsWith_unique, fun _ => endsWith_kind,
    neverEnds_iff_afterSteps, fun he _ => haltStep_of_endsWith_halted he⟩
  rw [← not_neverEnds_iff]
  exact em _

end Sys2Proof.Machine
end

section
/-! PROOFS. The ALU instructions: their exact result, their frame (41_alu.md R104, R107), and the fault they never raise (R106). -/

namespace Sys2Proof.Machine

/-! What ADD, MULTIPLY and COMPARE leave behind, field by field. -/

theorem State.setReg_advance (s : State) (r : Reg) (v : Byte) (n : Nat) :
    (s.setReg r v).advance n = { s with x := s.x.set r v, pc := wrap8 (s.pc.toNat + n) } := rfl

theorem State.setFlag_advance (s : State) (f : Flag) (n : Nat) :
    (s.setFlag f).advance n = { s with fl := f, pc := wrap8 (s.pc.toNat + n) } := rfl

/-- The whole frame of an instruction that writes one register and moves on. -/
theorem setReg_advance_frame (s : State) (r : Reg) (v : Byte) (n : Nat) :
    AdvancesPc n s ((s.setReg r v).advance n) ∧ KeepsRegsBut [r] s ((s.setReg r v).advance n) ∧
      KeepsMemBut [] s ((s.setReg r v).advance n) ∧ ((s.setReg r v).advance n).mem = s.mem ∧
      ((s.setReg r v).advance n).fl = s.fl ∧ ((s.setReg r v).advance n).out = s.out ∧
      KeepsStatus s ((s.setReg r v).advance n) :=
  ⟨(s.setReg r v).advance_pc_toNat n, keepsRegsBut_setReg s r v, fun _ _ => rfl, rfl, rfl, rfl, rfl, rfl⟩

/-- Settles O32: the register holds the ALU's sum or product, whose value modulo 256 is `addBytes_toNat` or `mulBytes_toNat`. -/
theorem addAndMultiplyAreExactModulo256 : Obligations.AddAndMultiplyAreExactModulo256 := by
  unfold Obligations.AddAndMultiplyAreExactModulo256
  refine fun ra rb s => ⟨⟨_, exec_add ra rb s, ?_, setReg_advance_frame s ra _ 3⟩,
    ⟨_, exec_multiply ra rb s, ?_, setReg_advance_frame s ra _ 3⟩⟩
  · rw [State.advance_reg, State.reg_setReg_same, addBytes_toNat]
  · rw [State.advance_reg, State.reg_setReg_same, mulBytes_toNat]

/-- Settles O34: the written value is a function of the two operand registers, and the next pc of the pc. -/
theorem aluInstructionsLeaveTheRestAlone : Obligations.AluInstructionsLeaveTheRestAlone := by
  unfold Obligations.AluInstructionsLeaveTheRestAlone
  intro ra rb s s' ha hb hpc
  refine ⟨⟨_, _, exec_add ra rb s, ?_⟩, ⟨_, _, exec_multiply ra rb s, ?_⟩, ⟨_, _, exec_compare ra rb s, ?_⟩⟩
  · rw [exec_add, ha, hb, State.setReg_advance, hpc]
    rfl
  · rw [exec_multiply, ha, hb, State.setReg_advance, hpc]
    rfl
  · rw [exec_compare, ha, hb, State.setFlag_advance, hpc]
    rfl

/-- 41_alu.md R106, 60_exceptions.md R162, R164: the record a step leaves is of an invalid opcode or an invalid register. -/
theorem code_of_stepWith_fault {m : OpcodeMap} {s t : State} {r : FaultRecord} (h : stepWith m s = .next t)
    (hr : t.fault = some r) : r.code = .invalidOpcode ∨ r.code = .invalidRegister := by
  obtain ⟨⟨-, hclear⟩, ⟨i, -, -, heff⟩ | ⟨-, -, rfl⟩⟩ := stepWith_next h
  · obtain ⟨bad, rfl, -, -⟩ := fault_of_effect heff hclear hr
    exact .inr (congrArg FaultRecord.code (Option.some.inj hr)).symm
  · exact .inl (congrArg FaultRecord.code (Option.some.inj hr)).symm

/-- Settles O16: a step faults only by its opcode or by a register operand. -/
theorem unsupportedAluOperationIsUnreachable : Obligations.UnsupportedAluOperationIsUnreachable := by
  unfold Obligations.UnsupportedAluOperationIsUnreachable
  intro m s t h r hr hcode
  rcases code_of_stepWith_fault h hr with hc | hc <;> cases hcode.symm.trans hc

end Sys2Proof.Machine
end

section
/-! PROOFS. The control transfers (43_branch.md R140 to R144, 42_stack.md R124, R125): where each instruction leaves the pc. -/

namespace Sys2Proof.Machine

/-! The branches as one write of the pc. -/

theorem Flag.isEqual_iff {f : Flag} : f.isEqual = true ↔ f = .equal := by
  unfold Flag.isEqual
  exact beq_iff_eq

theorem Flag.not_isEqual_iff {f : Flag} : (!f.isEqual) = true ↔ f ≠ .equal := by
  rw [Bool.not_eq_true', ← Bool.not_eq_true, Flag.isEqual_iff]

theorem exec_jumpIfEqual_setPc (r : Reg) (s : State) :
    exec (.jumpIfEqual r.byte) s = .next (s.setPc (if s.fl = .equal then s.reg r else wrap8 (s.pc.toNat + 2))) := by
  rw [exec_jumpIfEqual]
  by_cases hf : s.fl = .equal
  · rw [if_pos (Flag.isEqual_iff.mpr hf), if_pos hf]
  · rw [if_neg fun h => hf (Flag.isEqual_iff.mp h), if_neg hf]
    rfl

theorem exec_jumpIfNotEqual_setPc (r : Reg) (s : State) :
    exec (.jumpIfNotEqual r.byte) s = .next (s.setPc (if s.fl = .equal then wrap8 (s.pc.toNat + 2) else s.reg r)) := by
  rw [exec_jumpIfNotEqual]
  by_cases hf : s.fl = .equal
  · rw [if_neg fun h => Flag.not_isEqual_iff.mp h hf, if_pos hf]
    rfl
  · rw [if_pos (Flag.not_isEqual_iff.mpr hf), if_neg hf]

/-- Settles O43: each branch is one write of the pc, and the byte two on is `wrap8 (pc + 2)`. -/
theorem branchesGoToTheRegisterOrOn : Obligations.BranchesGoToTheRegisterOrOn := by
  unfold Obligations.BranchesGoToTheRegisterOrOn
  exact fun r s => ⟨exec_jump r s, wrap8 (s.pc.toNat + 2), wrap8_add_two_toNat s.pc, exec_jumpIfEqual_setPc r s,
    exec_jumpIfNotEqual_setPc r s⟩

/-- JUMP and the conditional jumps whose condition holds all do the same (43_branch.md R140). -/
theorem exec_of_jump_taken {i : Instr} {s : State} {r : Reg}
    (h : i = .jump r.byte ∨ (i = .jumpIfEqual r.byte ∧ s.fl = .equal) ∨ (i = .jumpIfNotEqual r.byte ∧ s.fl ≠ .equal)) :
    exec i s = .next (s.setPc (s.reg r)) := by
  rcases h with rfl | ⟨rfl, hf⟩ | ⟨rfl, hf⟩
  · exact exec_jump r s
  · rw [exec_jumpIfEqual_setPc, if_pos hf]
  · rw [exec_jumpIfNotEqual_setPc, if_neg hf]

/-! The instructions that go on to the next one. -/

/-- When an instruction goes on to the one after it in memory: always, never, or by the EQUAL bit of FL (43_branch.md R142, R143). -/
def FallsThrough (f : Flag) : Mnemonic → Prop
  | .halt | .call | .ret | .jump => False
  | .jumpIfEqual => f ≠ .equal
  | .jumpIfNotEqual => f = .equal
  | _ => True

theorem fallsThrough_of_not_mem (f : Flag) {k : Mnemonic}
    (hk : k ∉ [Mnemonic.call, .ret, .jump, .jumpIfEqual, .jumpIfNotEqual, .halt]) : FallsThrough f k := by
  cases k
  case halt | call | ret | jump | jumpIfEqual | jumpIfNotEqual => exact absurd (by decide) hk
  all_goals trivial

theorem regOperand_lt_of_wellFormed {i : Instr} (hw : i.wellFormed = true) {b : Byte} (hb : b ∈ i.regOperands) :
    b.toNat < 8 :=
  of_decide_eq_true (List.all_eq_true.mp hw b hb)

/-- An instruction that falls through moves the pc by its own length. -/
theorem advancesPc_of_fallsThrough {i : Instr} {s t : State} (hw : i.wellFormed = true) (h : Effect s i t)
    (hk : FallsThrough s.fl i.mnemonic) : AdvancesPc i.length s t := by
  cases h
  case halt | call | ret | jump => exact hk.elim
  case jumpIfEqual =>
    rw [if_neg fun h => hk (Flag.isEqual_iff.mp h)]
    exact s.advance_pc_toNat 2
  case jumpIfNotEqual =>
    rw [if_neg fun h => Flag.not_isEqual_iff.mp h hk]
    exact s.advance_pc_toNat 2
  case invalidRegister bad hbad hmem => exact absurd hbad (Nat.not_le.mpr (regOperand_lt_of_wellFormed hw hmem))
  all_goals exact State.advance_pc_toNat _ _

/-- Settles O27: what falls through advances by its length; the others set the pc, CALL after its push (the spec's D19). -/
theorem controlTransfersAreTheListedOnes : Obligations.ControlTransfersAreTheListedOnes := by
  unfold Obligations.ControlTransfersAreTheListedOnes
  intro i s hw
  obtain ⟨t, ht, heff⟩ := exec_effect i s
  have hon : FallsThrough s.fl i.mnemonic → AdvancesPc i.length s t := advancesPc_of_fallsThrough hw heff
  refine ⟨t, ht, fun hk => hon (fallsThrough_of_not_mem s.fl hk), fun hk hf => hon (hk ▸ hf), fun hk hf => hon (hk ▸ hf),
    ?ret, fun r => ⟨fun hjump => ?jump, ?call⟩⟩
  case ret =>
    rintro rfl
    cases ht.symm.trans (exec_ret s)
    exact s.topByte_eq
  case jump =>
    cases ht.symm.trans (exec_of_jump_taken hjump)
    rfl
  case call =>
    rintro rfl
    cases ht.symm.trans (exec_call r s)
    rfl

end Sys2Proof.Machine
end

section
/-! PROOFS. What raises nothing (60_exceptions.md R168): only a bad register operand makes a decoded instruction fault. -/

namespace Sys2Proof.Machine

/-- 60_exceptions.md R168: a record could only be the register check's, and that finds no operand of 8..255. -/
theorem fault_none_of_effect {i : Instr} {s t : State} (h : Effect s i t) (hclear : s.fault = none)
    (hw : i.wellFormed = true) : t.fault = none := by
  rw [Option.eq_none_iff_forall_ne_some]
  intro r hr
  obtain ⟨bad, -, hbad, hmem⟩ := fault_of_effect h hclear hr
  exact absurd hbad (Nat.not_le.mpr (regOperand_lt_of_wellFormed hw hmem))

/-- Settles O18: an enabled step on decoded bytes is the instruction's effect, which leaves the latch empty. -/
theorem wellFormedInstructionsRaiseNothing : Obligations.WellFormedInstructionsRaiseNothing := by
  unfold Obligations.WellFormedInstructionsRaiseNothing
  intro m s i he hd hw
  obtain ⟨t, ht, heff⟩ := exec_effect i s
  exact ⟨t, (stepWith_of_decode he hd).trans ht, fault_none_of_effect heff he.2 hw⟩

end Sys2Proof.Machine
end

section
/-! PROOFS. The last step of a run (70_reset_and_hazards.md R189): it is HALT, or it latches a record that describes its state. -/

namespace Sys2Proof.Machine

/-- 60_exceptions.md R161: a step that leaves a record raised it, writes nothing else, and the record describes the state. -/
theorem preciseFault_of_stepWith {m : OpcodeMap} {s t : State} {r : FaultRecord} (h : stepWith m s = .next t)
    (hr : t.fault = some r) : t = { s with fault := some r } ∧ r.Describes m s := by
  obtain ⟨⟨-, hclear⟩, ⟨i, -, -, heff⟩ | ⟨hbyte, -, rfl⟩⟩ := stepWith_next h
  · obtain ⟨bad, rfl, hbad, -⟩ := fault_of_effect heff hclear hr
    obtain rfl : ⟨.invalidRegister, s.pc, bad⟩ = r := Option.some.inj hr
    exact ⟨rfl, rfl, hbad⟩
  · obtain rfl : ⟨.invalidOpcode, s.pc, s.ir⟩ = r := Option.some.inj hr
    exact ⟨rfl, rfl, rfl, hbyte⟩

/-- Settles O55: the run's last step was enabled, and its end kind tells whether it cleared the running flag or latched a record. -/
theorem runsEndOnlyByHaltOrFault : Obligations.RunsEndOnlyByHaltOrFault := by
  unfold Obligations.RunsEndOnlyByHaltOrFault
  intro m s o he hend
  have ⟨fuel, hfuel⟩ := hend
  obtain ⟨n, u, hn, hu⟩ := lastStep_of_observeWith fuel s he hfuel
  refine ⟨n, u, hn, (stepWith_next hu).1, hu, ?_⟩
  rcases endsWith_kind hend with ⟨hkind, hhalted⟩ | ⟨hkind, hfaulted⟩
  · exact .inl ⟨hkind, decode_halt_of_stepWith_halted hu hhalted⟩
  · obtain ⟨r, hr⟩ := Option.ne_none_iff_exists'.mp hfaulted
    exact .inr ⟨hkind, r, preciseFault_of_stepWith hu hr⟩

end Sys2Proof.Machine
end

section
/-! PROOFS. The encoder and the decoder invert each other (30_encoding.md R75), the bytes no map uses (R70), and the default map's
own bytes (R66, log entry 1). -/

namespace Sys2Proof

/-- The entry of an instruction takes its operand bytes back from the bytes after the opcode and ignores what follows (R65). -/
theorem Mnemonic.instr_ofBytes (i : Instr) (opcode : Byte) (rest : List Byte) :
    i.mnemonic.instr (Fetched.ofBytes (opcode :: i.operands ++ rest)).a (Fetched.ofBytes (opcode :: i.operands ++ rest)).b = i := by
  cases i <;> rfl

/-- An entry's bytes are the opcode byte and the first of A, B, as many as the length says. -/
theorem Fetched.take_bytes (w : Fetched) (k : Mnemonic) :
    w.bytes.take k.format.length = w.ir :: (k.instr w.a w.b).operands := by
  rw [Mnemonic.operands_instr]
  cases k.format <;> rfl

theorem encode_of_decode {m : OpcodeMap} {w : Fetched} {i : Instr} (h : decode m w = .ok i) :
    encode m i = w.bytes.take i.length := by
  rcases decode_cases m w with ⟨k, -, hk, hd⟩ | ⟨-, hd⟩
  · obtain rfl : k.instr w.a w.b = i := Except.ok.inj (hd.symm.trans h)
    rw [Mnemonic.length_instr, Fetched.take_bytes, encode, Mnemonic.mnemonic_instr, hk]
  · cases hd.symm.trans h

/-! The bytes that are opcodes, as numbers below 256. -/

/-- The values of the bytes that match an entry. -/
def OpcodeMap.legalValues (m : OpcodeMap) : List Nat :=
  (List.range 256).filter fun n => !(m.lookup (BitVec.ofNat 8 n)).isNone

theorem OpcodeMap.mem_legalValues {m : OpcodeMap} {n : Nat} :
    n ∈ m.legalValues ↔ n ∈ Mnemonic.all.map fun k => (m k).toNat := by
  have hlegal (ir : Byte) : (m.lookup ir).isNone = false ↔ ∃ k, m k = ir := by
    simp [← Bool.not_eq_true, OpcodeMap.lookup_none]
  simp only [legalValues, List.mem_filter, List.mem_range, Bool.not_eq_true', hlegal, List.mem_map]
  constructor
  · rintro ⟨hn, k, hk⟩
    exact ⟨k, k.mem_all, by rw [hk, BitVec.toNat_ofNat, Nat.mod_eq_of_lt hn]⟩
  · rintro ⟨k, -, rfl⟩
    exact ⟨(m k).isLt, k, by rw [BitVec.ofNat_toNat, BitVec.setWidth_eq]⟩

/-- An injective map has 13 opcode bytes, one per entry. -/
theorem OpcodeMap.length_legalValues {m : OpcodeMap} (hm : m.Valid) : m.legalValues.length = 13 := by
  obtain ⟨hinj, -⟩ := hm
  have hnodup : (Mnemonic.all.map fun k => (m k).toNat).Nodup :=
    List.Nodup.map (fun j k h => hinj j k (BitVec.eq_of_toNat_eq h)) (by decide)
  have hperm : m.legalValues.Perm (Mnemonic.all.map fun k => (m k).toNat) :=
    (List.perm_ext_iff_of_nodup (List.nodup_range.filter _) hnodup).mpr fun _ => OpcodeMap.mem_legalValues
  rw [hperm.length_eq, List.length_map]
  rfl

theorem OpcodeMap.length_illegalValues {m : OpcodeMap} (hm : m.Valid) :
    ((List.range 256).filter fun n => (m.lookup (BitVec.ofNat 8 n)).isNone).length = 243 := by
  have hsplit := List.length_eq_length_filter_add (l := List.range 256) fun n => (m.lookup (BitVec.ofNat 8 n)).isNone
  have hlegal : ((List.range 256).filter fun n => !(m.lookup (BitVec.ofNat 8 n)).isNone).length = 13 := length_legalValues hm
  rw [List.length_range, hlegal] at hsplit
  omega

/-! The default map. -/

/-- The lookup inverts the default map, so the map is injective. -/
theorem lookup_defaultOpcodeMap (k : Mnemonic) : defaultOpcodeMap.lookup (defaultOpcodeMap k) = some k := by
  cases k <;> rfl

theorem defaultOpcodeMap_valid : defaultOpcodeMap.Valid := by
  refine ⟨fun j k h => ?_, fun k => ?_⟩
  · have hlookup : some j = some k := by rw [← lookup_defaultOpcodeMap j, h, lookup_defaultOpcodeMap]
    exact Option.some.inj hlookup
  · cases k <;> decide

/-- 30_encoding.md R69: every default byte reads as AABCDDDD. -/
theorem defaultOpcodeMap_reads_AABCDDDD (k : Mnemonic) :
    (defaultOpcodeMap k).toNat / 64 + 1 = k.format.length ∧
    (defaultOpcodeMap k).getLsbD 5 = decide (k ∈ [Mnemonic.add, .multiply, .compare]) ∧
    (defaultOpcodeMap k).getLsbD 4 = decide (k ∈ [Mnemonic.call, .ret, .jump, .jumpIfEqual, .jumpIfNotEqual]) := by
  cases k <;> decide

namespace Machine

/-- Settles O3: the opcode byte finds the instruction's own entry, and the entry takes the operand bytes back. -/
theorem decodingAnEncodedInstructionGivesItBack : Obligations.DecodingAnEncodedInstructionGivesItBack := by
  unfold Obligations.DecodingAnEncodedInstructionGivesItBack
  intro m hm i rest
  have hopcode : m i.mnemonic = (Fetched.ofBytes (encode m i ++ rest)).ir := rfl
  exact (decode_of_opcode hm hopcode).trans (congrArg Except.ok (Mnemonic.instr_ofBytes i (m i.mnemonic) rest))

/-- Settles O4: the matched entry's opcode byte is the fetched one, and it takes every byte its length names. -/
theorem decodedBytesAreTheEncoding : Obligations.DecodedBytesAreTheEncoding := by
  unfold Obligations.DecodedBytesAreTheEncoding
  exact fun m w i h => ⟨encode_of_decode h, (encode_length m i).symm⟩

/-- Settles O7: an injective map uses 13 bytes and leaves 243, and a valid one leaves 0xFF. -/
theorem twoHundredFortyThreeBytesAreIllegal : Obligations.TwoHundredFortyThreeBytesAreIllegal := by
  unfold Obligations.TwoHundredFortyThreeBytesAreIllegal
  exact ⟨fun m hm => ⟨OpcodeMap.length_illegalValues hm, OpcodeMap.lookup_none.mpr hm.2⟩, rfl⟩

/-- Settles O1: the bytes are the table's, and the lookup inverts the map. -/
theorem defaultOpcodeMapMeetsItsConstraints : Obligations.DefaultOpcodeMapMeetsItsConstraints := by
  unfold Obligations.DefaultOpcodeMapMeetsItsConstraints
  exact ⟨rfl, rfl, rfl, rfl, rfl, rfl, rfl, rfl, rfl, rfl, rfl, rfl, rfl, defaultOpcodeMap_valid,
    defaultOpcodeMap_reads_AABCDDDD⟩

/-- Settles O2: each opcode byte is its entry's under the default map, but 0xA8, which no entry has. -/
theorem wordsWrittenFromTheTableDecode : Obligations.WordsWrittenFromTheTableDecode := by
  have hword {w : Fetched} (k : Mnemonic) (hk : defaultOpcodeMap k = w.ir) :
      decode defaultOpcodeMap w = .ok (k.instr w.a w.b) := decode_of_opcode defaultOpcodeMap_valid hk
  unfold Obligations.WordsWrittenFromTheTableDecode
  exact ⟨hword .halt rfl, hword .loadImmediate rfl, hword .printRegister rfl, hword .add rfl, hword .multiply rfl,
    hword .compare rfl, hword .push rfl, hword .ret rfl, hword .jumpIfNotEqual rfl,
    decode_of_illegal fun k => by cases k <;> decide⟩

/-- Settles O8: `regOperand` compares the whole byte with 8, and `Reg.byte` is the byte of that value. -/
theorem registerOperandIsTheWholeByte : Obligations.RegisterOperandIsTheWholeByte := by
  have hbyte (b : Byte) (r : Reg) : b = r.byte ↔ b.toNat = r.val := by rw [← BitVec.toNat_inj, Reg.byte_toNat]
  unfold Obligations.RegisterOperandIsTheWholeByte
  refine ⟨fun b => regOperand_none.mpr, fun b r => ⟨fun h => (hbyte b r).mp (regOperand_some h), fun h => ?_⟩, hbyte⟩
  rw [(hbyte b r).mpr h, regOperand_byte]

end Machine
end Sys2Proof
end

section
/-! PROOFS. The fetch, the step and its faults (30_encoding.md R62, 40_dispatch.md R80 to R84, 60_exceptions.md R161 to R165), and
the invariant. -/

namespace Sys2Proof.Machine

/-! The fetch and the step. -/

/-- An address of the fetch, written as the residue it is (30_encoding.md R62). -/
theorem wrap8_add_eq_ofNat (x : Byte) (n : Nat) : wrap8 ((x.toNat : Int) + n) = BitVec.ofNat 8 ((x.toNat + n) % 256) := by
  apply BitVec.eq_of_toNat_eq
  rw [wrap8_add_toNat, BitVec.toNat_ofNat]
  exact (Nat.mod_mod _ _).symm

/-- Settles O9: the fetch is three reads at wrapped addresses. -/
theorem fetchReadsThreeBytesModulo256 : Obligations.FetchReadsThreeBytesModulo256 := by
  unfold Obligations.FetchReadsThreeBytesModulo256
  exact fun s => ⟨s.fetch_ir, congrArg s.mem.read (wrap8_add_eq_ofNat s.pc 1), congrArg s.mem.read (wrap8_add_eq_ofNat s.pc 2)⟩

/-- Settles O10: `stepWith_of_decode`, of which `step` is the case of the default map. -/
theorem stepRunsTheDecodedInstruction : Obligations.StepRunsTheDecodedInstruction := by
  unfold Obligations.StepRunsTheDecodedInstruction
  exact fun s he => ⟨fun i => stepWith_of_decode (m := defaultOpcodeMap) he, fun m i => stepWith_of_decode he⟩

/-- Settles O12: a stopped machine's step answers its stop reason. -/
theorem stoppedMachineSaysWhy : Obligations.StoppedMachineSaysWhy := by
  unfold Obligations.StoppedMachineSaysWhy
  exact fun m s => ⟨fun h => stepWith_stopped (stopReason_halted h), fun r h => stepWith_stopped (stopReason_faulted h)⟩

/-! Faults. -/

/-- Settles O13: an enabled step whose opcode byte no entry has raises InvalidOpcode. -/
theorem invalidOpcodeLatchesTheByteAndNothingElse : Obligations.InvalidOpcodeLatchesTheByteAndNothingElse := by
  unfold Obligations.InvalidOpcodeLatchesTheByteAndNothingElse
  exact fun m s he hbyte => ⟨stepWith_of_illegal he hbyte, rfl⟩

/-- Settles O14: the register check comes before every handler. -/
theorem invalidRegisterNamesTheFirstBadOperand : Obligations.InvalidRegisterNamesTheFirstBadOperand := by
  unfold Obligations.InvalidRegisterNamesTheFirstBadOperand
  exact ⟨rfl, fun i s bad => exec_bad i s⟩

/-- 41_alu.md R100: only the three ALU mnemonics name an operation. -/
theorem aluOp_none {tag : Mnemonic} (hadd : tag ≠ .add) (hmul : tag ≠ .multiply) (hcmp : tag ≠ .compare) :
    aluOp tag = none := by
  cases tag
  case add | multiply | compare => contradiction
  all_goals rfl

/-- Settles O15: valid operands pass the register check, and the tag fails the ALU's. -/
theorem aluRefusesATagOutsideItsSet : Obligations.AluRefusesATagOutsideItsSet := by
  unfold Obligations.AluRefusesATagOutsideItsSet
  refine ⟨rfl, fun tag hadd hmul hcmp ra rb s => ?_⟩
  rw [aluInstruction, withRegs_byte, aluOp_none hadd hmul hcmp]
  rfl

/-- Settles O17, by `preciseFault_of_stepWith`: the only faults are the decoder's and the register check's. -/
theorem faultingStepWritesOnlyTheLatch : Obligations.FaultingStepWritesOnlyTheLatch := by
  unfold Obligations.FaultingStepWritesOnlyTheLatch
  exact fun m s t h r hr => preciseFault_of_stepWith h hr

/-! The invariant. -/

theorem wf_mem_of_stepWith {m : OpcodeMap} {s t : State} (hwf : s.mem.wf) (h : stepWith m s = .next t) : t.mem.wf := by
  obtain ⟨-, ⟨i, -, -, heff⟩ | ⟨-, -, rfl⟩⟩ := stepWith_next h
  · rcases mem_of_effect heff with hmem | ⟨a, v, hmem⟩
    · exact hmem ▸ hwf
    · exact hmem ▸ Memory.wf_write hwf a v
  · exact hwf

/-- Settles O57: a step writes at most one byte, and a record it leaves describes a state that differs in the latch alone. -/
theorem everyStepKeepsTheInvariant : Obligations.EveryStepKeepsTheInvariant := by
  unfold Obligations.EveryStepKeepsTheInvariant
  intro m s t hinv h
  refine ⟨wf_mem_of_stepWith hinv.memory h, fun r hr => ?_⟩
  obtain ⟨⟨hrun, -⟩, -⟩ := stepWith_next h
  obtain ⟨rfl, hdesc⟩ := preciseFault_of_stepWith h hr
  exact ⟨hrun, hdesc⟩

/-- Loading leaves the latch as it was (20_memory.md R57). -/
theorem State.loadProgram_fault (s : State) (p : List Byte) : (s.loadProgram p).fault = s.fault := by
  rw [State.loadProgram, State.loadFrom_rest]

/-- A machine without a record meets the invariant when its memory is canonical. -/
theorem State.inv_of_fault_none {m : OpcodeMap} {s : State} (hwf : s.mem.wf) (hclear : s.fault = none) : s.Inv m :=
  ⟨hwf, fun r hr => by cases hclear.symm.trans hr⟩

/-- Settles O56: reset's memory is empty, loading writes bytes, and neither leaves a record. -/
theorem resetAndLoadedStatesMeetTheInvariant : Obligations.ResetAndLoadedStatesMeetTheInvariant := by
  unfold Obligations.ResetAndLoadedStatesMeetTheInvariant
  exact fun m => ⟨State.inv_of_fault_none Memory.wf_nil rfl, fun p =>
    State.inv_of_fault_none (State.loadFrom_wf p State.reset 0 Memory.wf_nil) (State.loadProgram_fault State.reset p)⟩

end Sys2Proof.Machine
end

section
/-! PROOFS. Who writes what (10_state.md R24, R29, R32, R34; 20_memory.md R42): the running flag, FL, the output, memory, the registers. -/

namespace Sys2Proof.Machine

/-- A step that changes anything a fault leaves alone ran a decoded instruction. -/
theorem effect_of_stepWith_changes {α : Type} {f : State → α} (hraise : ∀ s c b, f (State.raise s c b) = f s) {m : OpcodeMap}
    {s t : State} (h : stepWith m s = .next t) (hne : f t ≠ f s) : ∃ i, decode m s.fetch = .ok i ∧ Effect s i t := by
  obtain ⟨-, ⟨i, hd, -, heff⟩ | ⟨-, -, rfl⟩⟩ := stepWith_next h
  · exact ⟨i, hd, heff⟩
  · exact absurd (hraise _ _ _) hne

/-! One lemma per part of the state: what an instruction that is not its writer leaves there. -/

theorem compare_or_fl_of_effect {i : Instr} {s t : State} (h : Effect s i t) :
    (∃ r q : Reg, i = .compare r.byte q.byte) ∨ t.fl = s.fl := by
  cases h
  case compare r q => exact .inl ⟨r, q, rfl⟩
  case jumpIfEqual => right; split <;> rfl
  case jumpIfNotEqual => right; split <;> rfl
  all_goals exact .inr rfl

theorem print_or_out_of_effect {i : Instr} {s t : State} (h : Effect s i t) :
    (∃ r : Reg, i = .printRegister r.byte ∧ t.out = s.out ++ [s.reg r]) ∨ t.out = s.out := by
  cases h
  case printRegister r => exact .inl ⟨r, rfl, rfl⟩
  case jumpIfEqual => right; split <;> rfl
  case jumpIfNotEqual => right; split <;> rfl
  all_goals exact .inr rfl

theorem push_or_mem_of_effect {i : Instr} {s t : State} (h : Effect s i t) :
    (∃ (r : Reg) (v : Byte), (i = .push r.byte ∨ i = .call r.byte) ∧ t.mem = s.mem.write s.pushAddress v) ∨ t.mem = s.mem := by
  cases h
  case push r => exact .inl ⟨r, _, .inl rfl, rfl⟩
  case call r => exact .inl ⟨r, _, .inr rfl, rfl⟩
  case jumpIfEqual => right; split <;> rfl
  case jumpIfNotEqual => right; split <;> rfl
  all_goals exact .inr rfl

/-- A register is among the listed ones, where the written one is, or keeps its value. -/
theorem State.mem_or_reg_setReg (s : State) {r : Reg} {written : List Byte} (hr : r.byte ∈ written) (q : Reg) (v : Byte) :
    q.byte ∈ written ∨ (s.setReg r v).reg q = s.reg q :=
  (em (q = r)).imp (fun e : q = r => e ▸ hr) (s.reg_setReg_other v)

theorem writes_or_reg_of_effect {i : Instr} {s t : State} (h : Effect s i t) (q : Reg) :
    q.byte ∈ writesRegisters i ∨ t.reg q = s.reg q := by
  cases h
  case loadImmediate | add | multiply => exact s.mem_or_reg_setReg List.mem_cons_self q _
  case push | call | ret => exact s.mem_or_reg_setReg (r := sp) List.mem_cons_self q _
  case pop r =>
    rcases s.dropByte.mem_or_reg_setReg (List.mem_cons_of_mem 7 List.mem_cons_self) q
      (poppedValue Config.popSpResult s.topByte r) with hmem | hreg
    · exact .inl hmem
    · exact (s.mem_or_reg_setReg (r := sp) List.mem_cons_self q _).imp_right hreg.trans
  case jumpIfEqual => right; split <;> rfl
  case jumpIfNotEqual => right; split <;> rfl
  all_goals exact .inr rfl

/-! The writers, at the level of a step. -/

/-- Settles O19: a step was enabled, so it leaves running false only by clearing it, and a fault does not. -/
theorem onlyHaltChangesTheRunningFlag : Obligations.OnlyHaltChangesTheRunningFlag := by
  unfold Obligations.OnlyHaltChangesTheRunningFlag
  intro m s t h
  obtain ⟨he, -⟩ := stepWith_next h
  constructor
  · intro hstop
    cases hfault : t.fault with
    | none => exact decode_halt_of_stepWith_halted h ⟨hstop, hfault⟩
    | some r =>
      obtain ⟨rfl, -⟩ := preciseFault_of_stepWith h hfault
      cases he.1.symm.trans hstop
  · intro hd
    rw [stepWith_of_decode he hd, exec_halt] at h
    cases h
    rfl

/-- Settles O20: neither a fault nor an instruction other than COMPARE touches FL. -/
theorem onlyCompareChangesTheFlag : Obligations.OnlyCompareChangesTheFlag := by
  unfold Obligations.OnlyCompareChangesTheFlag
  intro m s t h hne
  obtain ⟨i, hd, heff⟩ := effect_of_stepWith_changes State.raise_fl h hne
  obtain ⟨r, q, rfl⟩ := (compare_or_fl_of_effect heff).resolve_right hne
  exact ⟨r, q, hd⟩

/-- Settles O21: neither a fault nor an instruction other than PRINT_REGISTER touches the output. -/
theorem outputGrowsOnlyByPrintRegister : Obligations.OutputGrowsOnlyByPrintRegister := by
  unfold Obligations.OutputGrowsOnlyByPrintRegister
  intro m s t h
  rw [or_iff_not_imp_left]
  intro hne
  obtain ⟨i, hd, heff⟩ := effect_of_stepWith_changes State.raise_out h hne
  obtain ⟨r, rfl, hout⟩ := (print_or_out_of_effect heff).resolve_right hne
  exact ⟨r, hd, hout⟩

/-- Settles O22: the one write of a PUSH or CALL is at the decremented SP. -/
theorem onlyPushAndCallWriteMemory : Obligations.OnlyPushAndCallWriteMemory := by
  unfold Obligations.OnlyPushAndCallWriteMemory
  intro m s t h a hne
  obtain ⟨i, hd, heff⟩ := effect_of_stepWith_changes (f := fun u => u.mem.read a) (fun _ _ _ => rfl) h hne
  rcases push_or_mem_of_effect heff with ⟨r, v, hi, hmem⟩ | hmem
  · have hdec := hi.imp (fun e => hd.trans (congrArg Except.ok e)) fun e => hd.trans (congrArg Except.ok e)
    refine ⟨not_not.mp fun ha => hne ?_, r, hdec⟩
    rw [hmem, Memory.read_write_other _ _ ha]
  · exact absurd (congrArg (Memory.read · a) hmem) hne

/-- Settles O23: the effects' register writes are those of the table's writes column. -/
theorem onlyListedRegistersAreWritten : Obligations.OnlyListedRegistersAreWritten := by
  unfold Obligations.OnlyListedRegistersAreWritten
  intro m s t h r hne
  obtain ⟨i, hd, heff⟩ := effect_of_stepWith_changes (f := fun u => u.reg r) (fun _ _ _ => rfl) h hne
  exact ⟨i, hd, (writes_or_reg_of_effect heff r).resolve_right hne⟩

end Sys2Proof.Machine
end

section
/-! PROOFS. Who reads what (10_state.md R24, R29; 20_memory.md R42): an instruction commutes with a change of what it does not read. -/

namespace Sys2Proof.Machine

/-! The stack operations and a register other than SP. -/

section setReg
variable (s : State) {r : Reg} (u v : Byte) (hr : r ≠ sp)
include hr

theorem State.pushAddress_setReg : (s.setReg r v).pushAddress = s.pushAddress := by
  rw [State.pushAddress, State.reg_setReg_other s v hr.symm, State.pushAddress]

theorem State.pushByte_setReg : (s.setReg r v).pushByte u = (s.pushByte u).setReg r v := by
  rw [State.pushByte, State.pushAddress_setReg s v hr, State.setReg_comm s v _ hr]
  rfl

theorem State.topByte_setReg : (s.setReg r v).topByte = s.topByte := by
  rw [State.topByte_eq, State.reg_setReg_other s v hr.symm, State.setReg_mem, State.topByte_eq]

theorem State.dropByte_setReg : (s.setReg r v).dropByte = s.dropByte.setReg r v := by
  rw [State.dropByte, State.reg_setReg_other s v hr.symm, State.setReg_comm s v _ hr, State.dropByte]

theorem pushedValue_setReg (p : PushSpSource) {q : Reg} (hq : r ≠ q) : pushedValue p (s.setReg r v) q = pushedValue p s q := by
  unfold pushedValue
  rw [State.reg_setReg_other s v hr.symm, State.reg_setReg_other s v hq.symm, State.pushAddress_setReg s v hr]

end setReg

/-! A register outside the reads column. -/

theorem ne_of_byte_not_mem {r q : Reg} {l : List Byte} (h : r.byte ∉ l) (hq : q.byte ∈ l) : r ≠ q := fun e => h (e ▸ hq)

/-- Only LOAD_IMMEDIATE and POP write a register they do not read. -/
theorem reads_or_overwrites {i : Instr} {c : Byte} (h : c ∈ writesRegisters i) :
    c ∈ readsRegisters i ∨ (∃ b, i = .loadImmediate c b) ∨ i = .pop c := by
  cases i
  case loadImmediate a b =>
    obtain rfl : c = a := List.mem_singleton.mp h
    exact .inr (.inl ⟨b, rfl⟩)
  case pop a =>
    rcases List.mem_cons.mp h with h7 | ha
    · exact .inl (List.mem_singleton.mpr h7)
    · exact .inr (.inr (congrArg Instr.pop (List.mem_singleton.mp ha).symm))
  case add | multiply =>
    obtain rfl := List.mem_singleton.mp h
    exact .inl List.mem_cons_self
  case push | call => exact .inl (List.mem_cons_of_mem _ h)
  case ret => exact .inl h
  all_goals cases h

/-- A register an instruction neither reads nor writes is carried through it. -/
theorem exec_setReg_unlisted (i : Instr) (s : State) {r : Reg} (v : Byte) (hread : r.byte ∉ readsRegisters i)
    (hwrite : r.byte ∉ writesRegisters i) : exec i (s.setReg r v) = mapNext (fun t => t.setReg r v) (exec i s) := by
  cases hf : i.regOperands.find? (fun r => decide (8 ≤ r.toNat)) with
  | some bad =>
    rw [exec_bad i s hf, exec_bad i _ hf]
    rfl
  | none =>
    obtain ⟨t, ht, heff⟩ := exec_effect i s
    rw [ht, mapNext]
    clear ht
    cases heff
    case halt => rfl
    case loadImmediate q b =>
      have hq : r ≠ q := ne_of_byte_not_mem hwrite List.mem_cons_self
      rw [exec_loadImmediate, State.setReg_comm s v b hq]
      rfl
    case add q p | multiply q p =>
      have hq : r ≠ q := ne_of_byte_not_mem hread List.mem_cons_self
      have hp : r ≠ p := ne_of_byte_not_mem hread (List.mem_cons_of_mem _ List.mem_cons_self)
      simp only [exec_add, exec_multiply, State.reg_setReg_other s v hq.symm, State.reg_setReg_other s v hp.symm,
        State.setReg_comm s v _ hq]
      rfl
    case compare q p =>
      have hq : r ≠ q := ne_of_byte_not_mem hread List.mem_cons_self
      have hp : r ≠ p := ne_of_byte_not_mem hread (List.mem_cons_of_mem _ List.mem_cons_self)
      rw [exec_compare, State.reg_setReg_other s v hq.symm, State.reg_setReg_other s v hp.symm]
      rfl
    case push q =>
      have hq : r ≠ q := ne_of_byte_not_mem hread List.mem_cons_self
      have hsp : r ≠ sp := ne_of_byte_not_mem hwrite List.mem_cons_self
      rw [exec_push, pushedValue_setReg s v hsp _ hq, State.pushByte_setReg s _ v hsp]
      rfl
    case call q =>
      have hq : r ≠ q := ne_of_byte_not_mem hread List.mem_cons_self
      have hsp : r ≠ sp := ne_of_byte_not_mem hwrite List.mem_cons_self
      rw [exec_call, State.pushByte_setReg s _ v hsp, State.reg_setReg_other _ v hq.symm]
      rfl
    case pop q =>
      have hsp : r ≠ sp := ne_of_byte_not_mem hread List.mem_cons_self
      have hq : r ≠ q := ne_of_byte_not_mem hwrite (List.mem_cons_of_mem _ List.mem_cons_self)
      rw [exec_pop, State.topByte_setReg s v hsp, State.dropByte_setReg s v hsp, State.setReg_comm _ v _ hq]
      rfl
    case ret =>
      have hsp : r ≠ sp := ne_of_byte_not_mem hread List.mem_cons_self
      rw [exec_ret, State.topByte_setReg s v hsp, State.dropByte_setReg s v hsp]
      rfl
    case printRegister q | jump q =>
      have hq : r ≠ q := ne_of_byte_not_mem hread List.mem_cons_self
      simp only [exec_printRegister, exec_jump, State.reg_setReg_other s v hq.symm]
      rfl
    case jumpIfEqual q | jumpIfNotEqual q =>
      have hq : r ≠ q := ne_of_byte_not_mem hread List.mem_cons_self
      simp only [exec_jumpIfEqual, exec_jumpIfNotEqual, State.reg_setReg_other s v hq.symm, State.setReg_fl]
      split <;> rfl
    case invalidRegister bad hbad hmem => exact absurd (by simpa using hbad) (List.find?_eq_none.mp hf bad hmem)

/-- Settles O24: a register that is written but not read is overwritten; one that is neither is carried through. -/
theorem unlistedRegistersAreNotRead : Obligations.UnlistedRegistersAreNotRead := by
  unfold Obligations.UnlistedRegistersAreNotRead
  intro i s r v hread
  by_cases hwrite : r.byte ∈ writesRegisters i
  · have hvalid : validRegisterByte r.byte = true := validRegisterByte_iff.mpr ⟨r, rfl⟩
    rcases (reads_or_overwrites hwrite).resolve_left hread with ⟨b, rfl⟩ | rfl
    · rw [if_pos ⟨by simp [Instr.wellFormed, Instr.regOperands, hvalid], hwrite⟩, exec_loadImmediate, exec_loadImmediate,
        State.setReg_setReg_same]
    · have hsp : r ≠ sp := ne_of_byte_not_mem hread List.mem_cons_self
      rw [if_pos ⟨by simp [Instr.wellFormed, Instr.regOperands, hvalid], hwrite⟩, exec_pop, exec_pop,
        State.topByte_setReg s v hsp, State.dropByte_setReg s v hsp, State.setReg_setReg_same]
  · rw [if_neg fun h => hwrite h.2, exec_setReg_unlisted i s v hread hwrite]

/-! FL. -/

/-- A change of the state that keeps the registers and commutes with writing the pc commutes with a branch of one outcome. -/
theorem branchIf_mapNext (f : State → State) (taken : Bool) (a : Byte) (s : State)
    (hjump : ∀ r : Reg, (f s).setPc ((f s).reg r) = f (s.setPc (s.reg r))) (hon : (f s).advance 2 = f (s.advance 2))
    (hbad : (f s).raiseInvalidRegister a = f (s.raiseInvalidRegister a)) :
    branchIf taken a (f s) = mapNext f (branchIf taken a s) := by
  refine withReg_mapNext f a s (fun r => ?_) hbad
  cases taken
  · exact hon
  · exact hjump r

theorem Flag.isEqual_congr {f g : Flag} (h : f = .equal ↔ g = .equal) : f.isEqual = g.isEqual := by
  rw [Bool.eq_iff_iff, Flag.isEqual_iff, Flag.isEqual_iff, h]

/-- An instruction other than COMPARE carries FL through, a conditional jump when the EQUAL bit is kept. -/
theorem exec_setFlag {i : Instr} {s : State} {f : Flag} (hcmp : i.mnemonic ≠ .compare)
    (hjump : i.mnemonic = .jumpIfEqual ∨ i.mnemonic = .jumpIfNotEqual → (f = .equal ↔ s.fl = .equal)) :
    exec i (s.setFlag f) = mapNext (fun t => t.setFlag f) (exec i s) := by
  have one (a : Byte) {F G : Reg → State} (h : ∀ r, F r = (G r).setFlag f) :
      withReg a (s.setFlag f) F = mapNext (fun t => t.setFlag f) (withReg a s G) := 
    withReg_mapNext (fun t => t.setFlag f) a s h rfl
  have branch (taken : Bool) (a : Byte) :
      branchIf taken a (s.setFlag f) = mapNext (fun t => t.setFlag f) (branchIf taken a s) :=
    branchIf_mapNext (fun t => t.setFlag f) taken a s (fun _ => rfl) rfl rfl
  cases i with
  | halt | ret => rfl
  | loadImmediate a b => exact one a fun _ => rfl
  | printRegister a => exact one a fun _ => rfl
  | push a => exact one a fun _ => rfl
  | pop a => exact one a fun _ => rfl
  | call a => exact one a fun _ => rfl
  | add a b => exact withRegs_mapNext (fun t => t.setFlag f) a b s (fun _ _ => rfl) fun _ => rfl
  | multiply a b => exact withRegs_mapNext (fun t => t.setFlag f) a b s (fun _ _ => rfl) fun _ => rfl
  | compare a b => exact absurd rfl hcmp
  | jump a => exact branch true a
  | jumpIfEqual a =>
    have heq : f.isEqual = s.fl.isEqual := Flag.isEqual_congr (hjump (.inl rfl))
    exact (congrArg (branchIf · a (s.setFlag f)) heq).trans (branch _ a)
  | jumpIfNotEqual a =>
    have heq : f.isEqual = s.fl.isEqual := Flag.isEqual_congr (hjump (.inr rfl))
    exact (congrArg (fun e => branchIf (!e) a (s.setFlag f)) heq).trans (branch _ a)

/-- A COMPARE of valid registers overwrites FL. -/
theorem exec_compare_setFlag {i : Instr} (s : State) (f : Flag) (hcmp : i.mnemonic = .compare) (hw : i.wellFormed = true) :
    exec i (s.setFlag f) = exec i s := by
  cases i with
  | compare a b =>
    have hvalid (c : Byte) (hc : c ∈ (Instr.compare a b).regOperands) : ∃ r : Reg, c = r.byte :=
      validRegisterByte_iff.mp (List.all_eq_true.mp hw c hc)
    obtain ⟨r, rfl⟩ := hvalid a List.mem_cons_self
    obtain ⟨q, rfl⟩ := hvalid b (List.mem_cons_of_mem _ List.mem_cons_self)
    rw [exec_compare, exec_compare]
    rfl
  | _ => cases hcmp

/-- Settles O25: an instruction carries FL through, overwrites it, or tests its EQUAL bit. -/
theorem flagIsReadOnlyAsTheEqualBit : Obligations.FlagIsReadOnlyAsTheEqualBit := by
  unfold Obligations.FlagIsReadOnlyAsTheEqualBit
  refine fun i s f => ⟨fun hcmp hje hjne => exec_setFlag hcmp fun h => absurd h (not_or.mpr ⟨hje, hjne⟩),
    fun hjump heq => exec_setFlag (fun hcmp => ?_) fun _ => heq, exec_compare_setFlag s f⟩
  rcases hjump with h | h <;> cases hcmp.symm.trans h

/-! Memory. -/

/-- Settles O26: only POP and RETURN look at memory, at the top byte, and what stores nothing carries memory through. -/
theorem dataIsReadOnlyAtTheStackTop : Obligations.DataIsReadOnlyAtTheStackTop := by
  unfold Obligations.DataIsReadOnlyAtTheStackTop
  intro i s mem hpush hcall htop
  have one (a : Byte) {F G : Reg → State} (h : ∀ r, F r = { G r with mem := mem }) :
      withReg a { s with mem := mem } F = mapNext (fun t => { t with mem := mem }) (withReg a s G) :=
    withReg_mapNext (fun t => { t with mem := mem }) a s h rfl
  have two (a b : Byte) {F G : Reg → Reg → State} (h : ∀ r q, F r q = { G r q with mem := mem }) :
      withRegs a b { s with mem := mem } F = mapNext (fun t => { t with mem := mem }) (withRegs a b s G) :=
    withRegs_mapNext (fun t => { t with mem := mem }) a b s h fun _ => rfl
  have branch (taken : Bool) (a : Byte) :
      branchIf taken a { s with mem := mem } = mapNext (fun t => { t with mem := mem }) (branchIf taken a s) :=
    branchIf_mapNext (fun t => { t with mem := mem }) taken a s (fun _ => rfl) rfl rfl
  cases i with
  | halt => rfl
  | loadImmediate a b => exact one a fun _ => rfl
  | printRegister a => exact one a fun _ => rfl
  | push a => exact absurd rfl hpush
  | call a => exact absurd rfl hcall
  | pop a =>
    have hread : ({ s with mem := mem } : State).topByte = s.topByte := htop (.inl rfl)
    exact one a fun r => by rw [hread]; rfl
  | ret =>
    have hread : ({ s with mem := mem } : State).topByte = s.topByte := htop (.inr rfl)
    rw [exec_ret, hread]
    rfl
  | add a b => exact two a b fun _ _ => rfl
  | multiply a b => exact two a b fun _ _ => rfl
  | compare a b => exact two a b fun _ _ => rfl
  | jump a => exact branch true a
  | jumpIfEqual a => exact branch s.fl.isEqual a
  | jumpIfNotEqual a => exact branch (!s.fl.isEqual) a

end Sys2Proof.Machine
end

section
/-! PROOFS. HALT, LOAD_IMMEDIATE, PRINT_REGISTER and COMPARE (40_dispatch.md R84 to R87, 41_alu.md R103), and the conditional jumps
and the jump to itself (43_branch.md R141, R143). -/

namespace Sys2Proof.Machine

/-- Settles O28: HALT writes the running flag alone. -/
theorem haltClearsTheRunningFlag : Obligations.HaltClearsTheRunningFlag := by
  unfold Obligations.HaltClearsTheRunningFlag
  exact exec_halt

/-- Settles O29: one register write and an advance. -/
theorem loadImmediateWritesTheByte : Obligations.LoadImmediateWritesTheByte := by
  unfold Obligations.LoadImmediateWritesTheByte
  exact fun r b s => ⟨_, exec_loadImmediate r b s, s.reg_setReg_same r b, setReg_advance_frame s r b 3⟩

/-- Settles O30: one byte of output and an advance. -/
theorem printRegisterAppendsTheByte : Obligations.PrintRegisterAppendsTheByte := by
  unfold Obligations.PrintRegisterAppendsTheByte
  exact fun r s => ⟨_, exec_printRegister r s, rfl, State.advance_pc_toNat _ 2, fun _ _ => rfl, fun _ _ => rfl, rfl, rfl,
    rfl, rfl⟩

/-- Settles O31: PRINT_REGISTER reads back the register just written. -/
theorem loadedByteIsPrinted : Obligations.LoadedByteIsPrinted := by
  unfold Obligations.LoadedByteIsPrinted
  refine fun r v s => ⟨_, _, exec_loadImmediate r v s, exec_printRegister r _, ?_⟩
  rw [State.advance_out, State.emit_out, State.advance_out, State.setReg_out, State.advance_reg, State.reg_setReg_same]

/-! COMPARE: each flag is one of the three outcomes of the unsigned order. -/

theorem compareFlag_less_iff {u v : Byte} : compareFlag u v = .less ↔ u.toNat < v.toNat := by
  unfold compareFlag
  split_ifs <;> simp [*]

theorem compareFlag_greater_iff {u v : Byte} : compareFlag u v = .greater ↔ v.toNat < u.toNat := by
  unfold compareFlag
  split_ifs with hlt
  · simp [Nat.le_of_lt hlt]
  all_goals simp [*]

theorem compareFlag_equal_iff {u v : Byte} : compareFlag u v = .equal ↔ u = v := by
  rw [← BitVec.toNat_inj]
  unfold compareFlag
  split_ifs <;> simp <;> omega

/-- Settles O33: FL is `compareFlag` of the two registers, and only FL and the pc change. -/
theorem compareSetsExactlyOneFlag : Obligations.CompareSetsExactlyOneFlag := by
  unfold Obligations.CompareSetsExactlyOneFlag
  exact fun ra rb s => ⟨_, exec_compare ra rb s, compareFlag_less_iff, compareFlag_greater_iff, compareFlag_equal_iff,
    State.advance_pc_toNat _ 3, fun _ _ => rfl, fun _ _ => rfl, rfl, rfl, rfl, rfl⟩

/-! Branches. -/

/-- Settles O44: the two conditional jumps test the same bit, for opposite values. -/
theorem exactlyOneConditionalJumpIsTaken : Obligations.ExactlyOneConditionalJumpIsTaken := by
  unfold Obligations.ExactlyOneConditionalJumpIsTaken
  refine fun r s => ⟨_, _, exec_jumpIfEqual_setPc r s, exec_jumpIfNotEqual_setPc r s, ?_⟩
  have hon : AdvancesPc 2 s (s.setPc (wrap8 (s.pc.toNat + 2))) := wrap8_add_two_toNat s.pc
  by_cases hf : s.fl = .equal
  · rw [if_pos hf, if_pos hf]
    exact .inl ⟨rfl, hon⟩
  · rw [if_neg hf, if_neg hf]
    exact .inr ⟨hon, rfl⟩

/-- A run whose step answers the same enabled state never ends. -/
theorem neverEnds_of_fixpoint {m : OpcodeMap} {s : State} (he : Enabled s) (h : stepWith m s = .next s) : NeverEnds m s := by
  intro fuel
  induction fuel with
  | zero => exact observeWith_zero_enabled he
  | succ n ih => rw [observeWith_succ he h, ih]

/-- Settles O45: the jump writes to the pc what it holds, so the step is a fixed point. -/
theorem jumpToItselfNeverEnds : Obligations.JumpToItselfNeverEnds := by
  unfold Obligations.JumpToItselfNeverEnds
  intro m s r he hd hpc
  apply neverEnds_of_fixpoint he
  rw [stepWith_of_decode he hd, exec_jump, hpc]
  rfl

end Sys2Proof.Machine
end

section
/-! PROOFS. The stack instructions (42_stack.md R120 to R125): their effects, and the pop that undoes a push. -/

namespace Sys2Proof.Machine

/-! What PUSH writes and POP leaves (R122, R123). -/

theorem pushedValue_of_ne (p : PushSpSource) (s : State) {r : Reg} (hr : r ≠ sp) : pushedValue p s r = s.reg r := if_neg hr

theorem poppedValue_of_ne (q : PopSpResult) (v : Byte) {r : Reg} (hr : r ≠ sp) : poppedValue q v r = v := if_neg hr

theorem poppedValue_value (v : Byte) (r : Reg) : poppedValue .value v r = v := ite_self v

/-! A push, then a pop. -/

section push
variable (s : State) (v : Byte)

theorem State.pushByte_sp : (s.pushByte v).reg sp = s.pushAddress := by
  rw [State.pushByte_reg, if_pos rfl]

theorem State.dropByte_sp : s.dropByte.reg sp = wrap8 ((s.reg sp).toNat + 1) := by
  rw [State.dropByte_reg, if_pos rfl]

theorem State.read_pushByte : (s.pushByte v).mem.read s.pushAddress = v := Memory.read_write_same s.mem s.pushAddress v

/-- 42_stack.md R120: a pop reads what a push has just written. -/
theorem State.topByte_pushByte : (s.pushByte v).topByte = v := by
  rw [State.topByte_eq, State.pushByte_sp, State.read_pushByte]

/-- 42_stack.md R121: after a push and a pop's increment every register is as before, SP included. -/
theorem State.dropByte_pushByte_reg (r : Reg) : (s.pushByte v).dropByte.reg r = s.reg r := by
  rw [State.dropByte_reg, State.pushByte_sp, State.pushAddress_add_one, State.pushByte_reg]
  by_cases hr : r = sp
  · rw [if_pos hr, hr]
  · rw [if_neg hr, if_neg hr]

end push

theorem keepsRegsBut_dropByte (s : State) : KeepsRegsBut [sp] s s.dropByte := keepsRegsBut_setReg s sp _

/-- The registers after a PUSH and a POP, under every value of the two parameters. -/
theorem reg_of_push_pop {p : PushSpSource} {q : PopSpResult} {s t u : State} {r d : Reg}
    (hpush : execPushWith p r.byte s = .next t) (hpop : execPopWith q d.byte t = .next u) :
    u.reg d = poppedValue q (pushedValue p s r) d ∧ KeepsRegsBut [d] s u := by
  cases hpush.symm.trans (execPushWith_byte p r s)
  cases hpop.symm.trans (execPopWith_byte q d _)
  have htop : ((s.pushByte (pushedValue p s r)).advance 2).topByte = pushedValue p s r := s.topByte_pushByte _
  refine ⟨?_, fun c hc => ?_⟩
  · rw [State.advance_reg, State.reg_setReg_same, htop]
  · rw [State.advance_reg, State.reg_setReg_other _ _ (by simpa using hc)]
    exact s.dropByte_pushByte_reg (pushedValue p s r) c

/-! The effects, one instruction at a time. -/

/-- Settles O35: a push of `pushedValue` and an advance. -/
theorem pushDecrementsThenWrites : Obligations.PushDecrementsThenWrites := by
  unfold Obligations.PushDecrementsThenWrites
  intro r s
  have hpush := exec_push r s
  generalize hv : pushedValue Config.pushSpSource s r = v at hpush
  refine ⟨_, hpush, s.pushByte_sp v, (congrArg BitVec.toNat (s.pushByte_sp v)).trans s.pushAddress_toNat, fun hr => ?_,
    fun hr => ?_, State.advance_pc_toNat _ 2, keepsRegsBut_pushByte s v, keepsMemBut_pushByte s v, rfl, rfl, rfl, rfl⟩
  · exact (s.read_pushByte v).trans (hv.symm.trans (pushedValue_of_ne _ s hr))
  · exact (s.read_pushByte v).trans (hv.symm.trans (if_pos hr))

/-- Settles O36: SP is incremented first, and a POP into SP then overwrites it with what `POP_SP_RESULT` says. -/
theorem popReadsThenIncrements : Obligations.PopReadsThenIncrements := by
  unfold Obligations.PopReadsThenIncrements
  intro r s
  refine ⟨_, exec_pop r s, fun hr => ⟨?value, ?inc⟩, ?sp, State.advance_pc_toNat _ 2, fun q hq => ?regs, fun _ _ => rfl, rfl,
    rfl, rfl, rfl, rfl⟩
  case value => rw [State.advance_reg, State.reg_setReg_same, poppedValue_of_ne _ _ hr, State.topByte_eq]
  case inc => rw [State.advance_reg, State.reg_setReg_other _ _ hr.symm, State.dropByte_sp, wrap8_add_one_toNat]
  case sp =>
    rintro rfl
    rw [State.advance_reg, State.reg_setReg_same]
    cases Config.popSpResult with
    | value => rfl
    | valuePlusOne => exact wrap8_add_one_toNat _
  case regs =>
    obtain ⟨hsp, hr⟩ : q ≠ sp ∧ q ≠ r := by simpa using hq
    rw [State.advance_reg, State.reg_setReg_other _ _ hr, keepsRegsBut_dropByte s q (by simpa using hsp)]

/-- Settles O37: a push of the return address, then the pc from the register as it is after the push. -/
theorem callPushesTheReturnAddress : Obligations.CallPushesTheReturnAddress := by
  unfold Obligations.CallPushesTheReturnAddress
  intro r s
  have hcall := exec_call r s
  have hreturn := wrap8_add_two_toNat s.pc
  generalize wrap8 (s.pc.toNat + 2) = v at hcall hreturn
  exact ⟨_, hcall, s.pushByte_sp v, (congrArg BitVec.toNat (s.pushByte_sp v)).trans s.pushAddress_toNat,
    (congrArg BitVec.toNat (s.read_pushByte v)).trans hreturn, fun hr => keepsRegsBut_pushByte s v r (by simpa using hr),
    fun hr => hr ▸ s.pushByte_sp v, keepsRegsBut_pushByte s v, keepsMemBut_pushByte s v, rfl, rfl, rfl, rfl⟩

/-- Settles O38: a pop whose byte goes to the pc. -/
theorem returnPopsIntoThePc : Obligations.ReturnPopsIntoThePc := by
  unfold Obligations.ReturnPopsIntoThePc
  exact fun s => ⟨fun m => rfl, _, exec_ret s, s.topByte_eq,
    (congrArg BitVec.toNat s.dropByte_sp).trans (wrap8_add_one_toNat _), keepsRegsBut_dropByte s, fun _ _ => rfl, rfl, rfl,
    rfl, rfl, rfl⟩

/-! Round trips. -/

/-- Settles O39: the pop reads the pushed byte and gives SP back, and POP writes no memory. -/
theorem pushThenPopCarriesTheValue : Obligations.PushThenPopCarriesTheValue := by
  unfold Obligations.PushThenPopCarriesTheValue
  intro r q s hr hq
  have hpush := exec_push r s
  have hpop := exec_pop q ((s.pushByte (pushedValue Config.pushSpSource s r)).advance 2)
  obtain ⟨hvalue, hkeep⟩ := reg_of_push_pop hpush hpop
  refine ⟨_, _, hpush, hpop, ?_, hkeep sp (by simpa using hq.symm), ?_, hkeep, keepsMemBut_pushByte s _⟩
  · rw [hvalue, poppedValue_of_ne _ _ hq, pushedValue_of_ne _ s hr]
  · exact (s.read_pushByte _).trans (pushedValue_of_ne _ s hr)

/-- Settles O40: the reset state shows that each other value loses SP, `new` with a POP into register 0 and `valuePlusOne` with a
POP into register 7. -/
theorem stackPointerRoundTripNeedsOldAndValue : Obligations.StackPointerRoundTripNeedsOldAndValue := by
  unfold Obligations.StackPointerRoundTripNeedsOldAndValue
  intro p q
  constructor
  · intro h
    have trip (d : Reg) : poppedValue q (pushedValue p State.reset sp) d = State.reset.reg sp := by
      have hpush := execPushWith_byte p sp State.reset
      have hpop := execPopWith_byte q d ((State.reset.pushByte (pushedValue p State.reset sp)).advance 2)
      obtain ⟨hvalue, -⟩ := reg_of_push_pop hpush hpop
      obtain ⟨hback, -⟩ := h _ _ _ d hpush hpop
      exact hvalue.symm.trans hback
    cases p with
    | new =>
      have hlost := trip 0
      rw [poppedValue_of_ne q _ (by decide)] at hlost
      exact absurd hlost (by decide)
    | old =>
      cases q with
      | value => exact ⟨rfl, rfl⟩
      | valuePlusOne => exact absurd (trip sp) (by decide)
  · rintro ⟨rfl, rfl⟩ s t u d hpush hpop
    obtain ⟨hvalue, hkeep⟩ := reg_of_push_pop hpush hpop
    have hold : pushedValue .old s sp = s.reg sp := if_pos rfl
    have hd : u.reg d = s.reg sp := by rw [hvalue, hold, poppedValue_value]
    by_cases hsp : d = sp
    · exact ⟨hd, hsp ▸ hd⟩
    · exact ⟨hd, hkeep sp (by simpa using Ne.symm hsp)⟩

/-- Settles O41: RETURN pops the pushed return address, and its increment undoes the push's decrement. -/
theorem returnResumesAfterTheCall : Obligations.ReturnResumesAfterTheCall := by
  unfold Obligations.ReturnResumesAfterTheCall
  intro r s
  have htop := s.topByte_pushByte (wrap8 (s.pc.toNat + 2))
  refine ⟨_, _, exec_call r s, exec_ret _, fun hr => keepsRegsBut_pushByte s _ r (by simpa using hr), ?_,
    (congrArg BitVec.toNat htop).trans (wrap8_add_two_toNat s.pc), fun q _ => s.dropByte_pushByte_reg (wrap8 (s.pc.toNat + 2)) q⟩
  rintro rfl
  exact (congrArg BitVec.toNat (s.pushByte_sp _)).trans s.pushAddress_toNat

/-- Settles O42: the next fetch reads memory after the push (the spec's D12). -/
theorem pushedByteIsFetchedByTheNextStep : Obligations.PushedByteIsFetchedByTheNextStep := by
  unfold Obligations.PushedByteIsFetchedByTheNextStep
  intro m s t r h hpc
  obtain ⟨he, -⟩ := stepWith_next h
  rw [State.fetch_ir, hpc]
  constructor
  · intro hd hr
    rw [stepWith_of_decode he hd, exec_push, pushedValue_of_ne _ s hr] at h
    cases h
    exact s.read_pushByte (s.reg r)
  · intro hd
    rw [stepWith_of_decode he hd, exec_call] at h
    cases h
    exact (congrArg BitVec.toNat (s.read_pushByte _)).trans (wrap8_add_two_toNat s.pc)

end Sys2Proof.Machine
end

section
/-! PROOFS. Memory (20_memory.md R47, R51, R57): read after writes, the canonical form, and the loaded program. -/

namespace Sys2Proof.Machine

/-- Settles O46: it is the basic law of memory, for every list of cells. -/
theorem writeChangesOnlyTheCellWritten : Obligations.WriteChangesOnlyTheCellWritten := by
  unfold Obligations.WriteChangesOnlyTheCellWritten
  exact Memory.read_write

/-- 20_memory.md R51: the last write to an address wins, and without one the memory reads as before. -/
theorem Memory.read_foldl_write (mem : Memory) (ws : List (Byte × Byte)) (a : Byte) :
    (ws.foldl (fun mem w => mem.write w.1 w.2) mem).read a =
      ((ws.reverse.find? fun w => w.1 == a).map Prod.snd).getD (mem.read a) := by
  induction ws using List.reverseRecOn with
  | nil => rfl
  | append_singleton ws w ih =>
    rw [List.foldl_concat, Memory.read_write, ih, List.reverse_concat, List.find?_cons]
    by_cases ha : a = w.1
    · rw [if_pos ha, beq_iff_eq.mpr ha.symm]
      rfl
    · rw [if_neg ha, beq_false_of_ne (Ne.symm ha)]

/-- Settles O47: reset memory reads 0 everywhere. -/
theorem readReturnsTheLastWrite : Obligations.ReadReturnsTheLastWrite := by
  unfold Obligations.ReadReturnsTheLastWrite
  exact Memory.read_foldl_write State.reset.mem

/-! The canonical form. -/

/-- A canonical memory's first entry is seen by a read that no memory of higher addresses answers. -/
theorem Memory.not_read_alike_of_lt {c : Host.Cell} {m n : Memory} (hwf : Memory.wf (c :: m)) (hlt : ∀ d ∈ n, c.1 < d.1) :
    ¬ ∀ a, Memory.read (c :: m) a = n.read a := by
  obtain ⟨-, -, hc, hne⟩ := Memory.wf_tail hwf
  intro h
  have hn : n.read (BitVec.ofNat 8 c.1) = Memory.unlisted :=
    Memory.read_of_lt (by rwa [BitVec.toNat_ofNat, Nat.mod_eq_of_lt hc])
  exact hne ((Memory.read_head hc).symm.trans ((h _).trans hn))

theorem Memory.le_of_read_alike {c d : Host.Cell} {m n : Memory} (hm : Memory.wf (c :: m)) (hn : Memory.wf (d :: n))
    (h : ∀ a, Memory.read (c :: m) a = Memory.read (d :: n) a) : d.1 ≤ c.1 := by
  obtain ⟨-, hrise, -, -⟩ := Memory.wf_tail hn
  by_contra hlt
  refine Memory.not_read_alike_of_lt hm (fun e he => ?_) h
  rcases List.mem_cons.mp he with rfl | he
  · omega
  · have := hrise e he
    omega

/-- Canonical memories with one first entry that read alike have rests that read alike: neither rest lists that entry's address. -/
theorem Memory.read_tail_alike {c : Host.Cell} {m n : Memory} (hm : Memory.wf (c :: m)) (hn : Memory.wf (c :: n))
    (h : ∀ a, Memory.read (c :: m) a = Memory.read (c :: n) a) (a : Byte) : m.read a = n.read a := by
  obtain ⟨-, hmrise, -, -⟩ := Memory.wf_tail hm
  obtain ⟨-, hnrise, -, -⟩ := Memory.wf_tail hn
  by_cases ha : c.1 = a.toNat
  · rw [Memory.read_of_lt (ha ▸ hmrise), Memory.read_of_lt (ha ▸ hnrise)]
  · have hread := h a
    rwa [Memory.read, Memory.read, if_neg ha, if_neg ha] at hread

theorem Memory.eq_of_read_alike : ∀ {m n : Memory}, m.wf → n.wf → (∀ a, m.read a = n.read a) → m = n
  | [], [], _, _, _ => rfl
  | [], _ :: _, _, hn, h => absurd (fun a => (h a).symm) (Memory.not_read_alike_of_lt hn nofun)
  | _ :: _, [], hm, _, h => absurd h (Memory.not_read_alike_of_lt hm nofun)
  | c :: m, d :: n, hm, hn, h => by
    have haddr : c.1 = d.1 :=
      Nat.le_antisymm (Memory.le_of_read_alike hn hm fun a => (h a).symm) (Memory.le_of_read_alike hm hn h)
    obtain ⟨hmtail, -, hc, -⟩ := Memory.wf_tail hm
    obtain ⟨hntail, -, hd, -⟩ := Memory.wf_tail hn
    have hvalue : c.2 = d.2 := by rw [← Memory.read_head hc, h, haddr, Memory.read_head hd]
    obtain rfl : c = d := Prod.ext haddr hvalue
    rw [Memory.eq_of_read_alike hmtail hntail (Memory.read_tail_alike hm hn h)]

/-- Settles O48: the lowest address at which canonical memories differ would read differently. -/
theorem canonicalMemoriesThatReadAlikeAreEqual : Obligations.CanonicalMemoriesThatReadAlikeAreEqual := by
  unfold Obligations.CanonicalMemoriesThatReadAlikeAreEqual
  exact fun m n hm hn => ⟨⟨Memory.eq_of_read_alike hm hn, fun h a => h ▸ rfl⟩, Memory.wf_write hm⟩

/-! The load port. -/

/-- Settles O49: a byte past the program's end is the reset value of its cell. -/
theorem loadedProgramStandsFromAddressZero : Obligations.LoadedProgramStandsFromAddressZero := by
  unfold Obligations.LoadedProgramStandsFromAddressZero
  refine fun p hp => ⟨fun a => ?_, State.loadFrom_rest p State.reset 0⟩
  rw [State.loadProgram, State.loadFrom_read p State.reset 0 a (by omega), Nat.zero_add, Nat.sub_zero]
  split_ifs with ha
  · rfl
  · rw [State.reset_mem_read, List.getD_eq_default _ _ (by omega)]

end Sys2Proof.Machine
end

section
/-! PROOFS. Reset and the interface (70_reset_and_hazards.md R180 to R184, 40_dispatch.md R89, 60_exceptions.md R167), and the layout of
FL (10_state.md R30). -/

namespace Sys2Proof.Machine

/-- Settles O51: the values are those of `State.reset`, and they enable a step. -/
theorem resetLeavesAnEnabledMachine : Obligations.ResetLeavesAnEnabledMachine := by
  unfold Obligations.ResetLeavesAnEnabledMachine
  exact ⟨rfl, rfl, rfl, rfl, rfl, rfl⟩

/-! One equation per input of the interface. -/

theorem Block.command_load_of_fresh {m : OpcodeMap} {b : Block} (a v : Byte) (h : b.started = false) :
    b.command m (.load a v) = .next ⟨false, b.core.load a v⟩ := by
  simp [Block.command, h]

theorem Block.command_load_of_started {m : OpcodeMap} {b : Block} (a v : Byte) (h : b.started = true) :
    b.command m (.load a v) = .refused .loadDuringRun := by
  simp [Block.command, h]

/-- The interface steps exactly when the core does, and is started then. -/
theorem Block.command_step_iff {m : OpcodeMap} {b b' : Block} :
    b.command m .step = .next b' ↔ ∃ t, stepWith m b.core = .next t ∧ b' = ⟨true, t⟩ := by
  change b.step m = .next b' ↔ _
  unfold Block.step
  cases stepWith m b.core <;> simp [eq_comm]

theorem not_stopped_of_enabled {s : State} (he : Enabled s) : ¬ Stopped s := by
  rintro (⟨hrun, -⟩ | hfault)
  · cases he.1.symm.trans hrun
  · exact hfault he.2

/-- The load port touches neither the running flag nor the latch. -/
theorem stopped_load {s : State} {a v : Byte} : Stopped (s.load a v) ↔ Stopped s := Iff.rfl

/-- Settles O52: one equation per input. -/
theorem loadIsAllowedOnlyBeforeTheFirstStep : Obligations.LoadIsAllowedOnlyBeforeTheFirstStep := by
  unfold Obligations.LoadIsAllowedOnlyBeforeTheFirstStep
  refine fun m b a v => ⟨rfl, Block.command_load_of_fresh a v, Block.command_load_of_started a v, fun t => ?_, fun b' h => ?_⟩
  · rw [Block.command_step_iff]
    simp
  · obtain ⟨t, -, rfl⟩ := Block.command_step_iff.mp h
    rfl

/-- Settles O53: in a stop the interface is started, so a load is refused, and no step is enabled. -/
theorem onlyResetLeavesAStop : Obligations.OnlyResetLeavesAStop := by
  unfold Obligations.OnlyResetLeavesAStop
  intro m b b' c hstarted h
  cases c with
  | reset =>
    cases h
    exact ⟨fun hs => absurd hs (not_stopped_of_enabled ⟨rfl, rfl⟩), fun _ => ⟨rfl, rfl, rfl⟩⟩
  | load a v =>
    cases hb : b.started with
    | true => cases (Block.command_load_of_started a v hb).symm.trans h
    | false =>
      cases (Block.command_load_of_fresh a v hb).symm.trans h
      have hrun : ¬ Stopped b.core := fun hs => by cases hb.symm.trans (hstarted hs)
      exact ⟨fun hs => absurd (stopped_load.mp hs) hrun, fun hs => absurd hs hrun⟩
  | step =>
    obtain ⟨t, ht, rfl⟩ := Block.command_step_iff.mp h
    exact ⟨fun _ => rfl, fun hs => absurd hs (not_stopped_of_enabled (stepWith_next ht).1)⟩

/-- Settles O58: the three flags have the bytes 4, 2 and 1. -/
theorem flagLayoutHasExactlyOneBit : Obligations.FlagLayoutHasExactlyOneBit := by
  unfold Obligations.FlagLayoutHasExactlyOneBit
  intro f
  cases f <;> decide

end Sys2Proof.Machine
end
